-- ==== Sys2Proof/Word.lean ====
section
/-! DEFINITION. The machine's two word types (00_scope.md R6, R8). Everything is unsigned; no value is ever sign-extended. -/

namespace Sys2Proof

/-- `u4`: a register, the program counter, the Output Port, an opcode, an immediate, a ROM address (R6). -/
abbrev Nibble := BitVec 4

/-- `u8`: one ROM word, bit 7 the most significant (R6, R8). -/
abbrev Byte := BitVec 8

end Sys2Proof
end

