-- ==== Sys2Proof/Config.lean ====
section
/-! DEFINITION. What a run of the core takes as given: the halt policies, and the free value of an input sample
(00_scope.md R6, R7; 93_implementation_defined.md U2, U5). -/

namespace Sys2Proof

/-- `HALT_POLICY`, which self-loops end the run (00_scope.md R7, 44_engine.md R77). -/
inductive HaltPolicy where
  /-- JMP to itself, or JNC to itself with Cy = 0. -/
  | takenSelfJump
  /-- JMP to itself only. -/
  | jmpSelfOnly
  /-- `NONE`: no self-loop ends the run. -/
  | noDetection
  deriving DecidableEq, Repr

/-- The spec's default for `HALT_POLICY` (44_engine.md R77; 92_eei_decisions.md D5; log entry 4). -/
def Config.defaultHaltPolicy : HaltPolicy := .takenSelfJump

/-- The ROM has "exactly 16 8-bit words" (00_scope.md R6, 20_memory.md R25). -/
abbrev Config.romWords : Nat := 16

/-- The largest value of the 4-bit Input Port (00_scope.md R6). -/
abbrev Config.maxInput : Nat := 15

/-- FREE VALUE: what the environment puts on the Input Port at the n-th `PortIn()` when the state's `supply` lists no
value for it: "any value" 0 to 15, "independent of everything" (93_implementation_defined.md U5, 42_io.md R63). It has
no body, so no proof can see a value of it (log entry 5). -/
opaque Config.inputSample : Nat → Nibble

end Sys2Proof
end

