-- ==== Sys2Proof/Syntax.lean ====
section
/-! DEFINITION. The twelve instructions and the names decoding and the meanings share (30_encoding.md R41, R45). -/

namespace Sys2Proof

/-- The closed set of operations, one constructor for each row of the opcode map (30_encoding.md R41, R42), each tagged with its
4-bit operand field (R45). Where the operation does not use the field it is named `u`: kept by decode, ignored by execution (R44). -/
inductive Instr where
  /-- ADD A, Im (40_add.md R54). -/
  | addAIm (im : Nibble)
  /-- MOV A, B (41_mov.md R59). -/
  | movAB (u : Nibble)
  /-- IN A (42_io.md R64). -/
  | inA (u : Nibble)
  /-- MOV A, Im (41_mov.md R60). -/
  | movAIm (im : Nibble)
  /-- MOV B, A (41_mov.md R61). -/
  | movBA (u : Nibble)
  /-- ADD B, Im (40_add.md R55). -/
  | addBIm (im : Nibble)
  /-- IN B (42_io.md R65). -/
  | inB (u : Nibble)
  /-- MOV B, Im (41_mov.md R62). -/
  | movBIm (im : Nibble)
  /-- OUT B (42_io.md R67). -/
  | outB (u : Nibble)
  /-- OUT Im (42_io.md R68). -/
  | outIm (im : Nibble)
  /-- JNC Im (43_jump.md R71). -/
  | jncIm (im : Nibble)
  /-- JMP Im (43_jump.md R70). -/
  | jmpIm (im : Nibble)
  deriving DecidableEq, Repr

/-- The general registers (10_state.md R11, R12). -/
inductive Reg where
  | a
  | b
  deriving DecidableEq, Repr

/-- Why the decoder rejects a word (30_encoding.md R42, R43): its high nibble is none of the twelve valid ones. -/
inductive DecodeReject where
  | unrecognizedOpcode (byte : Byte)
  deriving DecidableEq, Repr

end Sys2Proof
end

