-- ==== Sys2Proof/WellFormed.lean ====
section
/-! DEFINITION. The checks on what is handed to the core: an opcode, a program image, a supplier's values. Every term of `Instr` is
well formed by its type (a tag and a 4-bit field, 30_encoding.md R45), so the checks stand on the raw data. -/

namespace Sys2Proof

/-- The four invalid opcodes (30_encoding.md R43). -/
def WellFormed.invalidOpcodes : List Nibble := [0b1000#4, 0b1010#4, 0b1100#4, 0b1101#4]

/-- An opcode selects an instruction when it is none of the four (30_encoding.md R43). -/
def WellFormed.opcode (op : Nibble) : Bool := !WellFormed.invalidOpcodes.contains op

/-- An instruction in its canonical spelling: the five instructions that ignore the field have it 0000 (30_encoding.md R44). -/
def WellFormed.canonical : Instr → Bool
  | .movAB u | .inA u | .movBA u | .inB u | .outB u => u == 0#4
  | .addAIm _ | .movAIm _ | .addBIm _ | .movBIm _ | .outIm _ | .jncIm _ | .jmpIm _ => true

/-- A program image is "exactly 16 bytes" (20_memory.md R25, 70_reset_and_hazards.md R102). -/
def WellFormed.image (bytes : List Byte) : Bool := bytes.length == Config.romWords

/-- A supplier keeps its contract when every value it gives is 0 to 15 (60_exceptions.md R86, 70_reset_and_hazards.md R104). -/
def WellFormed.supply (values : List Nat) : Bool := values.all (· ≤ Config.maxInput)

end Sys2Proof
end

