-- ==== Sys2Proof/Decode.lean ====
section
/-! DEFINITION. The decoder, total on all 256 words, and the encoder (30_encoding.md R39 to R52). -/

namespace Sys2Proof

/-- `op = w[7:4]`, the high nibble (30_encoding.md R39). -/
def opcodeOf (w : Byte) : Nibble := w.extractLsb' 4 4

/-- `im = w[3:0]`, the low nibble, used as it stands (30_encoding.md R39, R40). -/
def operandOf (w : Byte) : Nibble := w.extractLsb' 0 4

/-- The decoder: the opcode map of 30_encoding.md R41, with the four invalid opcodes rejected by name (R42, R43). -/
def decode (w : Byte) : Except DecodeReject Instr :=
  match opcodeOf w with
  | 0b0000#4 => .ok (.addAIm (operandOf w))
  | 0b0001#4 => .ok (.movAB (operandOf w))
  | 0b0010#4 => .ok (.inA (operandOf w))
  | 0b0011#4 => .ok (.movAIm (operandOf w))
  | 0b0100#4 => .ok (.movBA (operandOf w))
  | 0b0101#4 => .ok (.addBIm (operandOf w))
  | 0b0110#4 => .ok (.inB (operandOf w))
  | 0b0111#4 => .ok (.movBIm (operandOf w))
  | 0b1001#4 => .ok (.outB (operandOf w))
  | 0b1011#4 => .ok (.outIm (operandOf w))
  | 0b1110#4 => .ok (.jncIm (operandOf w))
  | 0b1111#4 => .ok (.jmpIm (operandOf w))
  | _ => .error (.unrecognizedOpcode w)

/-- The opcode of each operation, read off the encoding lines of the instruction rules (R54, R55, R59 to R62, R64, R65, R67, R68,
R70, R71). -/
def Instr.opcode : Instr → Nibble
  | .addAIm _ => 0b0000#4
  | .movAB _ => 0b0001#4
  | .inA _ => 0b0010#4
  | .movAIm _ => 0b0011#4
  | .movBA _ => 0b0100#4
  | .addBIm _ => 0b0101#4
  | .inB _ => 0b0110#4
  | .movBIm _ => 0b0111#4
  | .outB _ => 0b1001#4
  | .outIm _ => 0b1011#4
  | .jncIm _ => 0b1110#4
  | .jmpIm _ => 0b1111#4

/-- The carried 4-bit operand field (30_encoding.md R45). -/
def Instr.operand : Instr → Nibble
  | .addAIm f | .movAB f | .inA f | .movAIm f | .movBA f | .addBIm f
  | .inB f | .movBIm f | .outB f | .outIm f | .jncIm f | .jmpIm f => f

/-- The encoder: `op` for the tag in the high nibble, the carried field in the low one (30_encoding.md R45, R52). -/
def encode (i : Instr) : Byte := i.opcode ++ i.operand

/-- One instruction's word from the opcode table's numbering of its bits: one byte, bits above `nbits` zero. -/
def tableWord (nbits w : Nat) : Byte := BitVec.ofNat 8 (w % 2 ^ nbits)

/-- What the decoder reads from the instruction whose bits are `w`. -/
def decodeTableWord (nbits w : Nat) : Option Instr :=
  match decode (tableWord nbits w) with
  | .ok i => some i
  | .error _ => none

end Sys2Proof
end

