-- ==== Sys2Proof/Machine/State.lean ====
section
/-! DEFINITION. The state of the core as plain data, the reasons a step can stop, and the state after reset
(10_state.md R10 to R20, 44_engine.md R76, 60_exceptions.md R85 to R88). -/

namespace Sys2Proof.Machine

/-- The two errors of the machine (60_exceptions.md R88): "a closed enumeration with two members". -/
inductive Fault where
  /-- Raised by the fetch-and-decode part of a step when the fetched word has an invalid opcode; carries the address and the whole
  word (R85, 30_encoding.md R49). Safe: the spec ends the run here. -/
  | decodeError (addr : Nibble) (byte : Byte)
  /-- Raised by an IN whose sample an outside supplier of a wider type answers with a value above 15; carries the address of the IN
  and the value (R86). Safe: the spec's wrapper fails fast here. -/
  | outOfBoundsInput (addr : Nibble) (value : Nat)
  deriving DecidableEq, Repr

/-- Why the model gives no meaning. -/
inductive Refusal where
  /-- Raised by an arm of `exec` that has no meaning yet; no arm does. Safe. -/
  | notModelled (mnemonic : String)
  /-- Raised by `step` when the ROM does not hold a program image, exactly the 16 words 0 to 15: the block has no behaviour for it
  (20_memory.md R25, 93_implementation_defined.md U7). Safe (log entry 1). -/
  | noProgramImage
  /-- Raised by `loadImage`, never by a step, for a list of bytes that is not 16 long (20_memory.md R25, 93 U7). Safe. -/
  | notAProgramImage (length : Nat)
  deriving DecidableEq, Repr

/-- Memory: the words that were loaded, by rising address. A program image is one with exactly the addresses 0 to 15
(20_memory.md R25; log entry 1). -/
abbrev Memory := List Host.Cell

/-- Whether the next step executes, ends the run, or faults (44_engine.md R76). -/
inductive Status where
  | run
  | halt
  | fault
  deriving DecidableEq, Repr

/-- The five state elements of 10_state.md R10, then the arguments of a run (00_scope.md R7), then the model's own observations. -/
structure State where
  /-- Register A (R11). -/
  a : Nibble
  /-- Register B (R12). -/
  b : Nibble
  /-- The carry flag Cy, `true` for 1 (R14). -/
  cy : Bool
  /-- The program counter: the address of the instruction that is executed next (R15). -/
  pc : Nibble
  /-- The Output Port register OUTP, the last written value (R16). -/
  outp : Nibble
  /-- The program ROM, fixed for the run (20_memory.md R25; log entry 1). -/
  rom : Memory
  /-- HALT_POLICY, fixed for the run (44_engine.md R77; log entry 4). -/
  haltPolicy : HaltPolicy
  /-- What the input supplier will answer to the coming `PortIn()` calls, oldest first (42_io.md R63, 60_exceptions.md R86; log entry 5). -/
  supply : List Nat
  /-- MODEL'S OWN: how many samples `PortIn()` has taken (log entry 5). -/
  samples : Nat
  /-- MODEL'S OWN ghost state: the output history, oldest first (42_io.md R66; log entry 7). -/
  events : List Nibble
  deriving DecidableEq, Repr

/-- The machine right after reset (10_state.md R20, 70_reset_and_hazards.md R99), with no program image loaded. -/
def State.reset : State :=
  { a := 0, b := 0, cy := false, pc := 0, outp := 0,
    rom := [], haltPolicy := Config.defaultHaltPolicy, supply := [], samples := 0, events := [] }

end Sys2Proof.Machine
end

