-- ==== Sys2Proof/Machine/Ops.lean ====
section
/-! DEFINITION. The named operations over the ROM, the registers, the program counter and the two ports, and the one way an
error is raised (20_memory.md, 10_state.md, 42_io.md R63 and R66, 60_exceptions.md R91). -/

namespace Sys2Proof.Machine

/-- The word loaded at an address; an address that was never loaded has no value (log entry 1). -/
def Memory.read : Memory → Nat → Option Byte
  | [], _ => none
  | (k, v) :: m, x => if k = x then some v else Memory.read m x

/-- Loading one word, in the canonical form: addresses strictly rising. Used by the loader only; no instruction writes the ROM
(20_memory.md R26). -/
def Memory.write : Memory → Nat → Byte → Memory
  | [], x, w => [(x, w)]
  | (k, v) :: m, x, w =>
    if x < k then (x, w) :: (k, v) :: m
    else if x = k then (x, w) :: m
    else (k, v) :: Memory.write m x w

/-- The canonical form: addresses strictly rising, and each one of the 16 ROM addresses (20_memory.md R33). -/
abbrev Memory.wf (m : Memory) : Prop :=
  m.Pairwise (fun x y => x.1 < y.1) ∧ ∀ c ∈ m, c.1 < Config.romWords

/-- A program image: exactly the 16 words 0 to 15, no more and no fewer (20_memory.md R25). -/
def Memory.isImage (m : Memory) : Bool := m.map (·.1) == List.range Config.romWords

/-- The ROM as the core sees it, "a total function from the 16 addresses to 8-bit words" (20_memory.md R25). Every word of a program
image is loaded, so the 0 is no word of one; where there is no program image this function is not used (log entry 1). -/
def State.romWord (s : State) (x : Nibble) : Byte := (s.rom.read x.toNat).getD 0

/-- The instruction fetch `MemRead(pc, 1)`: the ROM address is PC itself (20_memory.md R27); none where there is no program image to
fetch from (R25). -/
def State.fetch (s : State) : Option Byte := if s.rom.isImage then some (s.romWord s.pc) else none

/-- `x[r]`, a general register read (10_state.md R11, R12). -/
def State.reg (s : State) : Reg → Nibble
  | .a => s.a
  | .b => s.b

/-- `x[r] <- v`; the other register keeps its value (10_state.md R13). -/
def State.setReg (s : State) : Reg → Nibble → State
  | .a, v => { s with a := v }
  | .b, v => { s with b := v }

/-- `Cy <- v` (10_state.md R14). -/
def State.setCy (s : State) (v : Bool) : State := { s with cy := v }

/-- `(pc + 1) mod 16`: the successor of 15 is 0 (10_state.md R15). -/
def nextPc (pc : Nibble) : Nibble := pc + 1#4

/-- The sequential advance, which never touches Cy (44_engine.md R75). -/
def State.advance (s : State) : State := { s with pc := nextPc s.pc }

/-- `pc <- target` (43_jump.md R69). -/
def State.jump (s : State) (target : Nibble) : State := { s with pc := target }

/-- `PortIn()`: one sample, taken from what the supplier has ready, and a free 4-bit value where it has nothing listed
(42_io.md R63). A listed value above 15 is answered as it stands, with nothing consumed (60_exceptions.md R86). -/
def State.portIn (s : State) : Except Nat (Nibble × State) :=
  match s.supply with
  | [] => .ok (Config.inputSample s.samples, { s with samples := s.samples + 1 })
  | v :: rest =>
    if v ≤ Config.maxInput then
      .ok (BitVec.ofNat 4 v, { s with supply := rest, samples := s.samples + 1 })
    else .error v

/-- `PortOut(v)`: OUTP takes `v` and one output event carries `v`, also when OUTP held `v` already (42_io.md R66). -/
def State.portOut (s : State) (v : Nibble) : State := { s with outp := v, events := s.events ++ [v] }

/-- TAKING AN EXCEPTION. An error aborts the run: nothing is saved, no mode changes, control goes nowhere; the state stays as it was
before the failing step, and the reason goes to the caller (60_exceptions.md R91). There is no return from one (R92). -/
def raise (r : Fault) : Host.Outcome State Fault Refusal := .fault r

/-- `raise DecodeError(pc, w)`: the offending address and the whole word (60_exceptions.md R85, 30_encoding.md R49). -/
def State.raiseDecodeError (s : State) (w : Byte) : Host.Outcome State Fault Refusal := raise (.decodeError s.pc w)

/-- `OutOfBoundsInput(addr, value)` with the PC of the IN instruction (60_exceptions.md R86). -/
def State.raiseOutOfBoundsInput (s : State) (v : Nat) : Host.Outcome State Fault Refusal := raise (.outOfBoundsInput s.pc v)

/-- The ROM with byte `i` of the list at address `x + i` (20_memory.md R25). -/
def romFrom : Nat → List Byte → Memory
  | _, [] => []
  | x, w :: rest => (x, w) :: romFrom (x + 1) rest

/-- What fills a position that no program uses: `JMP n` at address `n`, the fill of the spec's own programs
(70_reset_and_hazards.md R103, 92_eei_decisions.md D10; the loader's choice, log entry 2). -/
def fillWord (x : Nat) : Byte := encode (.jmpIm (BitVec.ofNat 4 x))

/-- The loader's completion of a ROM to the 16 words of a program image: a loaded word stays, an unused position is filled
(70_reset_and_hazards.md R102, R103; log entry 2). -/
def Memory.filled (m : Memory) : Memory :=
  romFrom 0 ((List.range Config.romWords).map fun x => (m.read x).getD (fillWord x))

/-- Loading one ROM word from outside the machine (70_reset_and_hazards.md R102). -/
def State.loadWord (s : State) (x : Nibble) (w : Byte) : State := { s with rom := s.rom.write x.toNat w }

end Sys2Proof.Machine
end

