-- ==== Sys2Proof/Machine/Flags.lean ====
section
/-! DEFINITION. The ALU: one 4-bit unsigned adder with a carry out and no carry in; Cy is the machine's only flag
(40_add.md R53, R56). -/

namespace Sys2Proof.Machine

/-- `sum5 = zext_5(a) + zext_5(b)`, 5 bits, 0 to 30 (40_add.md R53). -/
def sum5 (x y : Nibble) : BitVec 5 := x.zeroExtend 5 + y.zeroExtend 5

/-- `result = sum5[3:0]` (40_add.md R53). -/
def aluResult (x y : Nibble) : Nibble := (sum5 x y).extractLsb' 0 4

/-- `carry = sum5[4]` (40_add.md R53). -/
def aluCarry (x y : Nibble) : Bool := (sum5 x y).getLsbD 4

end Sys2Proof.Machine
end

