-- ==== Sys2Proof/Machine/Operands.lean ====
section
/-! DEFINITION. The operand forms the instructions are made of: register plus immediate, register from a value, register from the
Input Port, Output Port from a value (30_encoding.md R40, 40_add.md R53, 41_mov.md R58, 42_io.md). -/

namespace Sys2Proof.Machine

/-- The immediate, used as it stands: unsigned, not extended, scaled or combined (30_encoding.md R40). -/
def immediate (im : Nibble) : Nibble := im

/-- A register plus the immediate: the sum modulo 16 to the register and the carry out to Cy, always written (40_add.md R54, R55). -/
def State.addTo (s : State) (r : Reg) (im : Nibble) : State :=
  ((s.setReg r (aluResult (s.reg r) (immediate im))).setCy (aluCarry (s.reg r) (immediate im))).advance

/-- A straight copy into a register; Cy is not touched (41_mov.md R58). -/
def State.copyTo (s : State) (r : Reg) (v : Nibble) : State := (s.setReg r v).advance

/-- One input sample copied into a register; a supplier's value out of range ends the run before anything is written
(42_io.md R63 to R65, 60_exceptions.md R86). -/
def State.inputTo (s : State) (r : Reg) : Host.Outcome State Fault Refusal :=
  match s.portIn with
  | .ok (v, s') => .next (s'.copyTo r v)
  | .error v => s.raiseOutOfBoundsInput v

/-- A value written to the Output Port (42_io.md R66 to R68). -/
def State.output (s : State) (v : Nibble) : State := (s.portOut v).advance

end Sys2Proof.Machine
end

