-- ==== Sys2Proof/Machine/Add.lean ====
section
/-! DEFINITION. ADD A, Im and ADD B, Im (40_add.md R54, R55). -/

namespace Sys2Proof.Machine

/-- ADD A, Im (40_add.md R54). -/
def execAddAIm (im : Nibble) (s : State) : Host.Outcome State Fault Refusal := .next (s.addTo .a im)

/-- ADD B, Im (40_add.md R55). -/
def execAddBIm (im : Nibble) (s : State) : Host.Outcome State Fault Refusal := .next (s.addTo .b im)

end Sys2Proof.Machine
end

