-- ==== Sys2Proof/Machine/Io.lean ====
section
/-! DEFINITION. The port instructions (42_io.md R63 to R68). -/

namespace Sys2Proof.Machine

/-- IN A; the low nibble `u` has no effect (42_io.md R64, 30_encoding.md R44). -/
def execInA (_u : Nibble) (s : State) : Host.Outcome State Fault Refusal := s.inputTo .a

/-- IN B; the low nibble `u` has no effect (42_io.md R65, 30_encoding.md R44). -/
def execInB (_u : Nibble) (s : State) : Host.Outcome State Fault Refusal := s.inputTo .b

/-- OUT B; the low nibble `u` has no effect (42_io.md R67, 30_encoding.md R44). -/
def execOutB (_u : Nibble) (s : State) : Host.Outcome State Fault Refusal := .next (s.output (s.reg .b))

/-- OUT Im (42_io.md R68). -/
def execOutIm (im : Nibble) (s : State) : Host.Outcome State Fault Refusal := .next (s.output (immediate im))

end Sys2Proof.Machine
end

