-- ==== Sys2Proof/Machine/Jump.lean ====
section
/-! DEFINITION. The jumps, absolute and without a delay slot (43_jump.md R69 to R71). -/

namespace Sys2Proof.Machine

/-- JNC Im: jump if Cy is 0, else the sequential advance; Cy keeps its value either way (43_jump.md R71). -/
def execJncIm (im : Nibble) (s : State) : Host.Outcome State Fault Refusal :=
  if s.cy = false then .next (s.jump (immediate im)) else .next s.advance

/-- JMP Im, whatever Cy is (43_jump.md R70). -/
def execJmpIm (im : Nibble) (s : State) : Host.Outcome State Fault Refusal := .next (s.jump (immediate im))

end Sys2Proof.Machine
end

