-- ==== Sys2Proof/Machine/Mov.lean ====
section
/-! DEFINITION. The four MOV instructions (41_mov.md R58 to R62). -/

namespace Sys2Proof.Machine

/-- MOV A, B; the low nibble `u` has no effect (41_mov.md R59, 30_encoding.md R44). -/
def execMovAB (_u : Nibble) (s : State) : Host.Outcome State Fault Refusal := .next (s.copyTo .a (s.reg .b))

/-- MOV A, Im (41_mov.md R60). -/
def execMovAIm (im : Nibble) (s : State) : Host.Outcome State Fault Refusal := .next (s.copyTo .a (immediate im))

/-- MOV B, A; the low nibble `u` has no effect (41_mov.md R61, 30_encoding.md R44). -/
def execMovBA (_u : Nibble) (s : State) : Host.Outcome State Fault Refusal := .next (s.copyTo .b (s.reg .a))

/-- MOV B, Im (41_mov.md R62). -/
def execMovBIm (im : Nibble) (s : State) : Host.Outcome State Fault Refusal := .next (s.copyTo .b (immediate im))

end Sys2Proof.Machine
end

