-- ==== Sys2Proof/Machine/Dispatch.lean ====
section
/-! DEFINITION. One arm for each instruction, each a call of its meaning (44_engine.md R74). -/

namespace Sys2Proof.Machine

def exec (i : Instr) (s : State) : Host.Outcome State Fault Refusal :=
  match i with
  | .addAIm im => Sys2Proof.Machine.execAddAIm im s
  | .movAB u => Sys2Proof.Machine.execMovAB u s
  | .inA u => Sys2Proof.Machine.execInA u s
  | .movAIm im => Sys2Proof.Machine.execMovAIm im s
  | .movBA u => Sys2Proof.Machine.execMovBA u s
  | .addBIm im => Sys2Proof.Machine.execAddBIm im s
  | .inB u => Sys2Proof.Machine.execInB u s
  | .movBIm im => Sys2Proof.Machine.execMovBIm im s
  | .outB u => Sys2Proof.Machine.execOutB u s
  | .outIm im => Sys2Proof.Machine.execOutIm im s
  | .jncIm im => Sys2Proof.Machine.execJncIm im s
  | .jmpIm im => Sys2Proof.Machine.execJmpIm im s

end Sys2Proof.Machine
end

