-- ==== Sys2Proof/Machine/Status.lean ====
section
/-! DEFINITION. Halt detection and the status function (44_engine.md R76 to R78). -/

namespace Sys2Proof.Machine

/-- `self_jump(op, im, pc, Cy)` under each halt policy, tested after decode and before the jump is applied (44_engine.md R77). It looks at
this one instruction and at no longer cycle (R78). -/
def selfJump (policy : HaltPolicy) (op im pc : Nibble) (cy : Bool) : Bool :=
  match policy with
  | .takenSelfJump => (op == 0b1111#4 && im == pc) || (op == 0b1110#4 && im == pc && !cy)
  | .jmpSelfOnly => op == 0b1111#4 && im == pc
  | .noDetection => false

/-- `status(ROM, pc, Cy)` with `w = ROM[pc]` (44_engine.md R76): the invalid opcodes are tested first. -/
def statusOf (policy : HaltPolicy) (w : Byte) (pc : Nibble) (cy : Bool) : Status :=
  if !WellFormed.opcode (opcodeOf w) then .fault
  else if selfJump policy (opcodeOf w) (operandOf w) pc cy then .halt
  else .run

/-- The status of a state; that there is none without a program image is the model's choice, log entry 9. -/
def State.status (s : State) : Option Status := s.fetch.map (fun w => statusOf s.haltPolicy w s.pc s.cy)

end Sys2Proof.Machine
end

