-- ==== Sys2Proof/Machine/Loop.lean ====
section
/-! DEFINITION. The fetch-decode-execute loop with the ROM as the parameter the spec makes it (20_memory.md R25, 44_engine.md R74). -/

namespace Sys2Proof.Machine

/-- One step over the ROM `rom`, a total function of the 16 addresses and fixed for the run (20_memory.md R25): fetch, decode, the halt
test, then the transition with its own PC update (44_engine.md R74). A halt changes nothing and is no fault: the state stays as it
is and `status` stays HALT (44_engine.md R76, R79; log entry 3). -/
def stepOn (rom : Nibble → Byte) (s : State) : Host.Outcome State Fault Refusal :=
  match decode (rom s.pc) with
  | .error _ => s.raiseDecodeError (rom s.pc)
  | .ok i =>
    if selfJump s.haltPolicy (opcodeOf (rom s.pc)) (operandOf (rom s.pc)) s.pc s.cy then .next s else exec i s

end Sys2Proof.Machine
end

