-- ==== Sys2Proof/Machine/Step.lean ====
section
/-! DEFINITION. The step of the machine over the ROM its state holds, and the placing of an instruction for it to fetch. -/

namespace Sys2Proof.Machine

/-- One step: the loop of 44_engine.md R74 over the program image the state holds. What is not exactly 16 words is no program image, and
the block has no behaviour for it (20_memory.md R25, 93_implementation_defined.md U7; log entry 1). -/
def step (s : State) : Host.Outcome State Fault Refusal :=
  if s.rom.isImage then stepOn s.romWord s else .refused .noProgramImage

/-- `s` with the instruction whose bits are `w` loaded at the program counter, where `step` fetches next, in a complete program image:
the other loaded words stay, unused positions are filled (log entry 2). -/
def State.withFetchWord (s : State) (nbits w : Nat) : State :=
  State.loadWord { s with rom := s.rom.filled } s.pc (tableWord nbits w)

end Sys2Proof.Machine
end

