-- ==== Sys2Proof/Machine/Engine.lean ====
section
/-! DEFINITION. A run as its caller sees it: the transitions, the end of the run and its result, under a caller's step ceiling
(44_engine.md R79 to R84). -/

namespace Sys2Proof.Machine

/-- What a caller gets. `halted` and `aborted` are the two results of the core (44_engine.md R80), with the final state and the number of
completed transitions (R79). `noProgram` and `abandoned` are no results of the core: they are the model's own choice of what to show a
caller where the spec names no result (44_engine.md R84, 91_not_in_source.md N10; log entry 10). -/
inductive RunResult where
  /-- `Halted`: the run ended normally. -/
  | halted (final : State) (transitions : Nat)
  /-- The run was aborted by an error, with the state as it was before the failing step. -/
  | aborted (reason : Fault) (final : State) (transitions : Nat)
  /-- MODEL'S CHOICE (log entry 10): there was no program image to run. -/
  | noProgram (reason : Refusal) (final : State) (transitions : Nat)
  /-- MODEL'S CHOICE (log entry 10): the caller's ceiling was reached where one more transition was possible, and the caller
  abandoned the run. The spec gives this no value and no
  result name (44_engine.md R83, R84; 91_not_in_source.md N10); the name, the last state and the count are the model's. -/
  | abandoned (last : State) (transitions : Nat)
  deriving DecidableEq, Repr

/-- One turn of the loop, `n` transitions done: the end of the run, or the state after one more transition. The halt is seen before the
step and is no transition (44_engine.md R79). -/
def turn (n : Nat) (s : State) : RunResult ⊕ State :=
  if s.status = some .halt then .inl (.halted s n)
  else match step s with
    | .next t => .inr t
    | .fault r => .inl (.aborted r s n)
    | .refused r => .inl (.noProgram r s n)

/-- The run from `s`, of which `n` transitions are already done, under a caller's `STEP_BUDGET`; the core itself has no ceiling
(44_engine.md R83). What it answers when the ceiling is reached is the model's choice, log entry 10. So is
the order of its tests there: after the last transition of the ceiling it still takes one `turn`, so where the status is RUN and the
next instruction is an IN whose listed value is above 15 it answers `aborted` with `outOfBoundsInput`, and not `abandoned`; it answers
`abandoned` only where that turn would be one more transition. -/
def runFor : Nat → Nat → State → RunResult
  | 0, n, s =>
    match turn n s with
    | .inl r => r
    | .inr _ => .abandoned s n
  | budget + 1, n, s =>
    match turn n s with
    | .inl r => r
    | .inr t => runFor budget (n + 1) t

/-- `k` steps in a row, stopping at the first fault or refusal. -/
def stepN : Nat → State → Host.Outcome State Fault Refusal
  | 0, s => .next s
  | k + 1, s =>
    match step s with
    | .next t => stepN k t
    | .fault r => .fault r
    | .refused r => .refused r

end Sys2Proof.Machine
end

