-- ==== Sys2Proof/Machine/Control.lean ====
section
/-! DEFINITION. The decoder as a dispatcher: the control signals of each opcode and the datapath they drive (30_encoding.md R47). This
is a second description of the machine, independent of the meanings in `exec`. -/

namespace Sys2Proof.Machine

/-- What is written to the enabled destination: the `value` column of 30_encoding.md R47. -/
inductive ValueSource where
  | sumOfA
  | sumOfB
  | regA
  | regB
  | inputPort
  | im
  deriving DecidableEq, Repr

/-- The control signals of 30_encoding.md R47. -/
structure Signals where
  aWe : Bool := false
  bWe : Bool := false
  outpWe : Bool := false
  cyWe : Bool := false
  pcLd : Bool := false
  inRe : Bool := false
  err : Bool := false
  value : ValueSource := .im
  deriving DecidableEq, Repr

/-- The rows of the table of 30_encoding.md R47; a signal not shown there is 0. -/
def controlOf (op : Nibble) (cy : Bool) : Signals :=
  match op with
  | 0b0000#4 => { aWe := true, cyWe := true, value := .sumOfA }
  | 0b0001#4 => { aWe := true, value := .regB }
  | 0b0010#4 => { aWe := true, inRe := true, value := .inputPort }
  | 0b0011#4 => { aWe := true, value := .im }
  | 0b0100#4 => { bWe := true, value := .regA }
  | 0b0101#4 => { bWe := true, cyWe := true, value := .sumOfB }
  | 0b0110#4 => { bWe := true, inRe := true, value := .inputPort }
  | 0b0111#4 => { bWe := true, value := .im }
  | 0b1001#4 => { outpWe := true, value := .regB }
  | 0b1011#4 => { outpWe := true, value := .im }
  | 0b1110#4 => { pcLd := !cy, value := .im }
  | 0b1111#4 => { pcLd := true, value := .im }
  | _ => { err := true }

/-- The value multiplexer; `sample` is what the Input Port gave. -/
def ValueSource.select (v : ValueSource) (s : State) (im sample : Nibble) : Nibble :=
  match v with
  | .sumOfA => aluResult s.a im
  | .sumOfB => aluResult s.b im
  | .regA => s.a
  | .regB => s.b
  | .inputPort => sample
  | .im => im

/-- The carry out of the adder, whose register input is selected with the value. -/
def ValueSource.carry (v : ValueSource) (s : State) (im : Nibble) : Bool :=
  match v with
  | .sumOfB => aluCarry s.b im
  | .sumOfA | .regA | .regB | .inputPort | .im => aluCarry s.a im

/-- All enabled elements written at once from the old values; PC loads `im` or increments (30_encoding.md R47). `s` is the state
before the step, `port` the state with the sample taken. -/
def Signals.latch (c : Signals) (s port : State) (im sample : Nibble) : State :=
  let v := c.value.select s im sample
  { port with
    a := if c.aWe then v else s.a
    b := if c.bWe then v else s.b
    cy := if c.cyWe then c.value.carry s im else s.cy
    outp := if c.outpWe then v else s.outp
    events := if c.outpWe then s.events ++ [v] else s.events
    pc := if c.pcLd then im else nextPc s.pc }

/-- One step of the datapath. When `err` is 1, or the halt test holds, every enable is forced to 0 (30_encoding.md R47). -/
def datapathStep (s : State) : Host.Outcome State Fault Refusal :=
  match s.fetch with
  | none => .refused .noProgramImage
  | some w =>
    let c := controlOf (opcodeOf w) s.cy
    if c.err then s.raiseDecodeError w
    else if selfJump s.haltPolicy (opcodeOf w) (operandOf w) s.pc s.cy then .next s
    else if c.inRe then
      match s.portIn with
      | .ok (v, s') => .next (c.latch s s' (operandOf w) v)
      | .error v => s.raiseOutOfBoundsInput v
    else .next (c.latch s s (operandOf w) 0)

end Sys2Proof.Machine
end

