-- ==== Sys2Proof/Machine/Interface.lean ====
section
/-! DEFINITION. The outside of the block: loading the program image, the reset event, the clock edge, and the output signals
(10_state.md R21, 20_memory.md R25 and R27, 70_reset_and_hazards.md R99 to R102). -/

namespace Sys2Proof.Machine

/-- The loader's hand-over: exactly 16 bytes, byte `i` becoming `ROM[i]`; any other length is not a program image
(20_memory.md R25, 70_reset_and_hazards.md R102, 93_implementation_defined.md U7). -/
def loadImage (image : List Byte) (s : State) : Host.Outcome State Fault Refusal :=
  if WellFormed.image image then .next { s with rom := romFrom 0 image } else .refused (.notAProgramImage image.length)

/-- The reset event, at any time: the five elements take their initial values and the new run's history starts empty; no output event
(70_reset_and_hazards.md R99, R101). That the loaded image, the halt policy, the supplier and the sample counter stay is the model's choice,
log entries 5 and 8. -/
def resetEvent (s : State) : State := { s with a := 0, b := 0, cy := false, pc := 0, outp := 0, events := [] }

/-- The one-hot word select of the ROM address decode, `sel[i] = (pc == i)` (20_memory.md R27). -/
def wordSelect (pc : Nibble) (i : Fin 16) : Bool := pc.toNat == i.val

/-- `rom_addr` (10_state.md R21). -/
def romAddr (s : State) : Nibble := s.pc

/-- `rom_data = ROM[rom_addr]` (10_state.md R21, 20_memory.md R27); none where no word was loaded (log entry 9). -/
def romData (s : State) : Option Byte := s.rom.read (romAddr s).toNat

/-- `out_port`, equal to OUTP at all times (10_state.md R16, R21). -/
def outPort (s : State) : Nibble := s.outp

/-- `halt`: status is HALT (10_state.md R21). -/
def haltSignal (s : State) : Bool := s.status == some .halt

/-- `fault`: status is FAULT (10_state.md R21). -/
def faultSignal (s : State) : Bool := s.status == some .fault

/-- A strobe of the control signals, 0 unless status is RUN (10_state.md R21, 30_encoding.md R47). That it is 0 where there is no program
image is the model's choice, log entry 9. -/
def strobe (f : Signals → Bool) (s : State) : Bool :=
  s.status == some .run && s.fetch.any (fun w => f (controlOf (opcodeOf w) s.cy))

/-- `in_re`: the Input Port is sampled at this step (10_state.md R21). -/
def inRe (s : State) : Bool := strobe Signals.inRe s

/-- `out_we`: the Output Port is written at this step (10_state.md R21). -/
def outWe (s : State) : Bool := strobe Signals.outpWe s

/-- One rising edge of `clk`: one whole step, and no change where the step ends the run (10_state.md R21, 60_exceptions.md R91). -/
def clockEdge (s : State) : State :=
  match step s with
  | .next t => t
  | .fault _ => s
  | .refused _ => s

end Sys2Proof.Machine
end

