-- ==== Sys2Proof/Machine/Matrix.lean ====
section
/-! DEFINITION. The read and write matrix of the instructions over the state elements and the ports, as 10_state.md R13 prints it. It
describes the instructions from outside and is not used by their meanings. -/

namespace Sys2Proof.Machine

/-- One row of the matrix: which elements the instruction reads and writes. Every instruction reads and writes PC. -/
structure Access where
  readsA : Bool := false
  writesA : Bool := false
  readsB : Bool := false
  writesB : Bool := false
  readsCy : Bool := false
  writesCy : Bool := false
  writesOutp : Bool := false
  readsInput : Bool := false
  usesIm : Bool := false
  deriving DecidableEq, Repr

/-- The matrix of 10_state.md R13, row by row. -/
def accessOf : Instr → Access
  | .addAIm _ => { readsA := true, writesA := true, writesCy := true, usesIm := true }
  | .movAB _ => { writesA := true, readsB := true }
  | .inA _ => { writesA := true, readsInput := true }
  | .movAIm _ => { writesA := true, usesIm := true }
  | .movBA _ => { readsA := true, writesB := true }
  | .addBIm _ => { readsB := true, writesB := true, writesCy := true, usesIm := true }
  | .inB _ => { writesB := true, readsInput := true }
  | .movBIm _ => { writesB := true, usesIm := true }
  | .outB _ => { readsB := true, writesOutp := true }
  | .outIm _ => { writesOutp := true, usesIm := true }
  | .jncIm _ => { readsCy := true, usesIm := true }
  | .jmpIm _ => { usesIm := true }

end Sys2Proof.Machine
end

