-- ==== Sys2Proof/Safety.lean ====
section
/-! DEFINITION. The words claims are stated in: invariants, the host's duties, what a step leaves alone, and when a run is safe. -/

namespace Sys2Proof.Machine

/-- OUTP holds the value of the last output event of the run, and its reset value 0 where there was none
(10_state.md R16, 42_io.md R66). -/
abbrev OutputConsistent (s : State) : Prop := s.outp = s.events.getLast?.getD 0

/-- The machine's invariant: the ROM is in its canonical form and OUTP agrees with the output history. -/
abbrev Consistent (s : State) : Prop := Memory.wf s.rom ∧ OutputConsistent s

/-- The host's duty before a run: the ROM holds a program image, exactly 16 words (20_memory.md R25, 44_engine.md R82,
70_reset_and_hazards.md R102). -/
abbrev ProgramImage (s : State) : Prop := s.rom.isImage = true

/-- The supplier's duty in a run: every value it gives is 0 to 15 (70_reset_and_hazards.md R104). -/
abbrev SupplyInRange (s : State) : Prop := WellFormed.supply s.supply = true

/-- The next answer of the supplier, if one is listed, is 0 to 15. -/
abbrev NextInputInRange (s : State) : Prop := ∀ v, s.supply.head? = some v → v ≤ Config.maxInput

/-- Nothing of the program changed: every ROM word reads as before, and the halt policy is the same. -/
abbrev SameProgram (s t : State) : Prop := (∀ x, t.rom.read x = s.rom.read x) ∧ t.haltPolicy = s.haltPolicy

/-- No input sample was taken. -/
abbrev NoSample (s t : State) : Prop := t.supply = s.supply ∧ t.samples = s.samples

/-- Exactly one input sample was taken. -/
abbrev OneSample (s t : State) : Prop := t.supply = s.supply.tail ∧ t.samples = s.samples + 1

/-- The Output Port was not written and no event was emitted. -/
abbrev NoOutput (s t : State) : Prop := t.outp = s.outp ∧ t.events = s.events

/-- The Output Port took `v` and one event with `v` was emitted. -/
abbrev OneOutput (v : Nibble) (s t : State) : Prop := t.outp = v ∧ t.events = s.events ++ [v]

/-- PC advanced to the next word, wrapping from 15 to 0 (44_engine.md R75). -/
abbrev Advances (s t : State) : Prop := t.pc.toNat = (s.pc.toNat + 1) % 16

/-- The two jumps; the other ten instructions are the non-jump instructions of 44_engine.md R75. -/
def isJump : Instr → Bool
  | .jncIm _ | .jmpIm _ => true
  | .addAIm _ | .movAB _ | .inA _ | .movAIm _ | .movBA _ | .addBIm _ | .inB _ | .movBIm _ | .outB _ | .outIm _ => false

/-- The two ADD instructions. -/
def isAdd : Instr → Bool
  | .addAIm _ | .addBIm _ => true
  | .movAB _ | .inA _ | .movAIm _ | .movBA _ | .inB _ | .movBIm _ | .outB _ | .outIm _ | .jncIm _ | .jmpIm _ => false

/-- Two states agree on every element the matrix says the instruction reads (10_state.md R13), PC included. -/
abbrev AgreeOnReads (c : Access) (s t : State) : Prop :=
  s.pc = t.pc ∧ (c.readsA = true → s.a = t.a) ∧ (c.readsB = true → s.b = t.b) ∧ (c.readsCy = true → s.cy = t.cy) ∧
  (c.readsInput = true → s.supply = t.supply ∧ s.samples = t.samples)

/-- Two states agree on every element the matrix says the instruction writes (10_state.md R13), PC included. -/
abbrev AgreeOnWrites (c : Access) (s t : State) : Prop :=
  s.pc = t.pc ∧ (c.writesA = true → s.a = t.a) ∧ (c.writesB = true → s.b = t.b) ∧ (c.writesCy = true → s.cy = t.cy) ∧
  (c.writesOutp = true → s.outp = t.outp)

/-- From `s` to `t` only what the matrix says the instruction writes has changed, and PC (10_state.md R13). -/
abbrev OnlyWrites (c : Access) (s t : State) : Prop :=
  (c.writesA = false → t.a = s.a) ∧ (c.writesB = false → t.b = s.b) ∧ (c.writesCy = false → t.cy = s.cy) ∧
  (c.writesOutp = false → NoOutput s t) ∧ (c.readsInput = false → NoSample s t) ∧ SameProgram s t

/-- An outcome with the ROM of its next state exchanged. -/
def withRom (m : Memory) : Host.Outcome State Fault Refusal → Host.Outcome State Fault Refusal
  | .next t => .next { t with rom := m }
  | .fault r => .fault r
  | .refused r => .refused r

/-- A safe run goes on, or has ended normally: its status is RUN or HALT (44_engine.md R84). -/
abbrev Safe (s : State) : Prop := s.status = some .run ∨ s.status = some .halt

end Sys2Proof.Machine
end

