-- ==== Sys2Proof/Certificates/Slice0/Obligations.lean ====
section
/-! DEFINITION. What is to be proved of the model, each statement from the spec's rules; OBLIGATIONS.json lists them. -/

open Sys2Proof Sys2Proof.Machine

/-! ### Decoding and encoding -/

/-- Words written out bit by bit from the encoding lines of the instruction rules, at least one for each family, decode to the
instruction they stand for, and one word of each invalid opcode is rejected (30_encoding.md R41, R43, R52). -/
def Obligations.WordsOfEveryFamilyDecode : Prop :=
  decode 0b00001111#8 = .ok (.addAIm 15) ∧ decode 0b01010111#8 = .ok (.addBIm 7) ∧
  decode 0b00010000#8 = .ok (.movAB 0) ∧ decode 0b00110011#8 = .ok (.movAIm 3) ∧
  decode 0b01001010#8 = .ok (.movBA 10) ∧ decode 0b01111100#8 = .ok (.movBIm 12) ∧
  decode 0b00100000#8 = .ok (.inA 0) ∧ decode 0b01100000#8 = .ok (.inB 0) ∧
  decode 0b10010111#8 = .ok (.outB 7) ∧ decode 0b10111010#8 = .ok (.outIm 10) ∧
  decode 0b11100001#8 = .ok (.jncIm 1) ∧ decode 0b11110011#8 = .ok (.jmpIm 3) ∧
  decode 0b10000000#8 = .error (.unrecognizedOpcode 0x80) ∧ decode 0b10101111#8 = .error (.unrecognizedOpcode 0xAF) ∧
  decode 0b11000000#8 = .error (.unrecognizedOpcode 0xC0) ∧ decode 0b11011111#8 = .error (.unrecognizedOpcode 0xDF)

/-- 30_encoding.md R42: every word decodes or is rejected, which of the two depends on the high nibble alone, and a decoded
operation is the one of that opcode, tagged with the low nibble. -/
def Obligations.DecoderContract : Prop :=
  (∀ w : Byte, (∃ i, decode w = .ok i) ∨ decode w = .error (.unrecognizedOpcode w)) ∧
  (∀ v w : Byte, opcodeOf v = opcodeOf w → ((∃ i, decode v = .ok i) ↔ ∃ i, decode w = .ok i)) ∧
  (∀ (w : Byte) (i : Instr), decode w = .ok i → i.opcode = opcodeOf w ∧ i.operand = operandOf w)

/-- 30_encoding.md R43: the rejected words are exactly those with one of the four invalid opcodes, whatever the low nibble, 64 of
the 256; and a step that fetches one ends in `DecodeError`. -/
def Obligations.InvalidOpcodesAreExactlyFour : Prop :=
  (∀ w : Byte, (∃ e, decode w = .error e) ↔
    (opcodeOf w = 0b1000#4 ∨ opcodeOf w = 0b1010#4 ∨ opcodeOf w = 0b1100#4 ∨ opcodeOf w = 0b1101#4)) ∧
  ((List.range 256).countP (fun n => !(decode (BitVec.ofNat 8 n)).isOk)) = 64 ∧
  (∀ (s : State) (w : Byte), s.fetch = some w →
    (opcodeOf w = 0b1000#4 ∨ opcodeOf w = 0b1010#4 ∨ opcodeOf w = 0b1100#4 ∨ opcodeOf w = 0b1101#4) →
    step s = .fault (.decodeError s.pc w))

/-- 30_encoding.md R45. That the operand field is carried for all twelve operations, also where execution ignores it, is the spec's
decision 92_eei_decisions.md D19. -/
def Obligations.EncodeDecodeRoundTrip : Prop :=
  (∀ i : Instr, decode (encode i) = .ok i) ∧ (∀ (w : Byte) (i : Instr), decode w = .ok i → encode i = w)

/-- 30_encoding.md R44: where the matrix says the low nibble is not used, two words of the same opcode do the same thing. That it is
ignored is the spec's decision 92_eei_decisions.md D4. -/
def Obligations.UnusedLowNibbleIsIgnored : Prop :=
  ∀ (i j : Instr) (s : State), (accessOf i).usesIm = false → i.opcode = j.opcode → exec i s = exec j s

/-- 30_encoding.md R46, an inference of the spec from its opcode map: bits 3:2 of the opcode name the destination (A, B, Output Port,
PC), bits 1:0 the source (A, B, Input Port, the immediate alone), with the one exception the map itself makes (JNC has source bits
10 and reads no port). -/
def Obligations.OpcodeBitsNameDestinationAndSource : Prop :=
  ∀ i : Instr,
    ((accessOf i).writesA = true ↔ i.opcode.extractLsb' 2 2 = 0b00#2) ∧
    ((accessOf i).writesB = true ↔ i.opcode.extractLsb' 2 2 = 0b01#2) ∧
    ((accessOf i).writesOutp = true ↔ i.opcode.extractLsb' 2 2 = 0b10#2) ∧
    (isJump i = true ↔ i.opcode.extractLsb' 2 2 = 0b11#2) ∧
    ((accessOf i).readsA = true ↔ i.opcode.extractLsb' 0 2 = 0b00#2) ∧
    ((accessOf i).readsB = true ↔ i.opcode.extractLsb' 0 2 = 0b01#2) ∧
    ((accessOf i).readsInput = true ↔ i.opcode.extractLsb' 0 2 = 0b10#2 ∧ isJump i = false) ∧
    (isAdd i = true ↔ i.opcode = 0b0000#4 ∨ i.opcode = 0b0101#4)

/-! ### What each instruction does, and what it leaves alone -/

/-- 40_add.md R54. -/
def Obligations.AddAImSetsSumAndCarry : Prop :=
  ∀ (im : Nibble) (s : State), ∃ t, exec (.addAIm im) s = .next t ∧
    t.a.toNat = (s.a.toNat + im.toNat) % 16 ∧ (t.cy = true ↔ s.a.toNat + im.toNat > 15) ∧ Advances s t ∧
    t.b = s.b ∧ NoOutput s t ∧ NoSample s t ∧ SameProgram s t ∧ encode (.addAIm im) = 0b0000#4 ++ im

/-- 40_add.md R55. -/
def Obligations.AddBImSetsSumAndCarry : Prop :=
  ∀ (im : Nibble) (s : State), ∃ t, exec (.addBIm im) s = .next t ∧
    t.b.toNat = (s.b.toNat + im.toNat) % 16 ∧ (t.cy = true ↔ s.b.toNat + im.toNat > 15) ∧ Advances s t ∧
    t.a = s.a ∧ NoOutput s t ∧ NoSample s t ∧ SameProgram s t ∧ encode (.addBIm im) = 0b0101#4 ++ im

/-- 41_mov.md R59. That the low nibble `u` is ignored is the spec's decision 92_eei_decisions.md D4. -/
def Obligations.MovABCopiesB : Prop :=
  ∀ (u : Nibble) (s : State), ∃ t, exec (.movAB u) s = .next t ∧
    t.a = s.b ∧ t.b = s.b ∧ t.cy = s.cy ∧ Advances s t ∧
    NoOutput s t ∧ NoSample s t ∧ SameProgram s t ∧ encode (.movAB u) = 0b0001#4 ++ u

/-- 41_mov.md R60. -/
def Obligations.MovAImLoadsImmediate : Prop :=
  ∀ (im : Nibble) (s : State), ∃ t, exec (.movAIm im) s = .next t ∧
    t.a = im ∧ t.b = s.b ∧ t.cy = s.cy ∧ Advances s t ∧
    NoOutput s t ∧ NoSample s t ∧ SameProgram s t ∧ encode (.movAIm im) = 0b0011#4 ++ im

/-- 41_mov.md R61. That the low nibble `u` is ignored is the spec's decision 92_eei_decisions.md D4. -/
def Obligations.MovBACopiesA : Prop :=
  ∀ (u : Nibble) (s : State), ∃ t, exec (.movBA u) s = .next t ∧
    t.b = s.a ∧ t.a = s.a ∧ t.cy = s.cy ∧ Advances s t ∧
    NoOutput s t ∧ NoSample s t ∧ SameProgram s t ∧ encode (.movBA u) = 0b0100#4 ++ u

/-- 41_mov.md R62. -/
def Obligations.MovBImLoadsImmediate : Prop :=
  ∀ (im : Nibble) (s : State), ∃ t, exec (.movBIm im) s = .next t ∧
    t.b = im ∧ t.a = s.a ∧ t.cy = s.cy ∧ Advances s t ∧
    NoOutput s t ∧ NoSample s t ∧ SameProgram s t ∧ encode (.movBIm im) = 0b0111#4 ++ im

/-- 42_io.md R64: A takes the sample unchanged, the supplier's listed value where there is one and some 4-bit value where there is none,
and one sample is consumed. That the low nibble `u` is ignored is the spec's decision 92_eei_decisions.md D4. -/
def Obligations.InATakesOneSample : Prop :=
  ∀ (u : Nibble) (s : State), NextInputInRange s → ∃ t, exec (.inA u) s = .next t ∧
    (∀ v, s.supply.head? = some v → t.a.toNat = v) ∧ t.b = s.b ∧ t.cy = s.cy ∧ Advances s t ∧
    NoOutput s t ∧ OneSample s t ∧ SameProgram s t ∧ encode (.inA u) = 0b0010#4 ++ u

/-- 42_io.md R65: B takes the sample unchanged, the supplier's listed value where there is one and some 4-bit value where there is none,
and one sample is consumed. That the low nibble `u` is ignored is the spec's decision 92_eei_decisions.md D4. -/
def Obligations.InBTakesOneSample : Prop :=
  ∀ (u : Nibble) (s : State), NextInputInRange s → ∃ t, exec (.inB u) s = .next t ∧
    (∀ v, s.supply.head? = some v → t.b.toNat = v) ∧ t.a = s.a ∧ t.cy = s.cy ∧ Advances s t ∧
    NoOutput s t ∧ OneSample s t ∧ SameProgram s t ∧ encode (.inB u) = 0b0110#4 ++ u

/-- The model's choice, log entry 5: where the supplier lists no value, the sample is the free value of its number. The spec says only
that it is any value 0 to 15 (93_implementation_defined.md U5). -/
def Obligations.UnlistedSampleIsFree : Prop :=
  ∀ (u : Nibble) (s : State), s.supply = [] →
    exec (.inA u) s =
      .next { s with a := Config.inputSample s.samples, pc := nextPc s.pc, samples := s.samples + 1 } ∧
    exec (.inB u) s =
      .next { s with b := Config.inputSample s.samples, pc := nextPc s.pc, samples := s.samples + 1 }

/-- 42_io.md R67. That the low nibble `u` is ignored is the spec's decision 92_eei_decisions.md D4; the event list is log entry 7. -/
def Obligations.OutBWritesOutputPort : Prop :=
  ∀ (u : Nibble) (s : State), ∃ t, exec (.outB u) s = .next t ∧
    OneOutput s.b s t ∧ t.a = s.a ∧ t.b = s.b ∧ t.cy = s.cy ∧ Advances s t ∧
    NoSample s t ∧ SameProgram s t ∧ encode (.outB u) = 0b1001#4 ++ u

/-- 42_io.md R68; the event list is log entry 7. -/
def Obligations.OutImWritesOutputPort : Prop :=
  ∀ (im : Nibble) (s : State), ∃ t, exec (.outIm im) s = .next t ∧
    OneOutput im s t ∧ t.a = s.a ∧ t.b = s.b ∧ t.cy = s.cy ∧ Advances s t ∧
    NoSample s t ∧ SameProgram s t ∧ encode (.outIm im) = 0b1011#4 ++ im

/-- 43_jump.md R71: taken where Cy is 0, else the sequential advance; Cy and all else as before either way. -/
def Obligations.JncImJumpsIfNoCarry : Prop :=
  ∀ (im : Nibble) (s : State), ∃ t, exec (.jncIm im) s = .next t ∧
    (s.cy = false → t.pc = im) ∧ (s.cy = true → Advances s t) ∧ t.cy = s.cy ∧ t.a = s.a ∧ t.b = s.b ∧
    NoOutput s t ∧ NoSample s t ∧ SameProgram s t ∧ encode (.jncIm im) = 0b1110#4 ++ im

/-- 43_jump.md R70: PC takes the immediate, whatever Cy is and also where it is PC's own value. -/
def Obligations.JmpImJumpsAlways : Prop :=
  ∀ (im : Nibble) (s : State), ∃ t, exec (.jmpIm im) s = .next t ∧
    t.pc = im ∧ t.cy = s.cy ∧ t.a = s.a ∧ t.b = s.b ∧
    NoOutput s t ∧ NoSample s t ∧ SameProgram s t ∧ encode (.jmpIm im) = 0b1111#4 ++ im

/-- 40_add.md R54, an inference of the spec: adding `16 - k` subtracts `k` modulo 16 and leaves Cy 1 exactly when the register was at
least `k`, for `k` from 1 to 15, for both registers. -/
def Obligations.AddingComplementSubtracts : Prop :=
  ∀ (k : Nat) (s : State), 1 ≤ k → k ≤ 15 →
    (∃ t, exec (.addAIm (BitVec.ofNat 4 (16 - k))) s = .next t ∧
      (t.a.toNat : Int) = ((s.a.toNat : Int) - k) % 16 ∧ (t.cy = true ↔ k ≤ s.a.toNat)) ∧
    (∃ t, exec (.addBIm (BitVec.ofNat 4 (16 - k))) s = .next t ∧
      (t.b.toNat : Int) = ((s.b.toNat : Int) - k) % 16 ∧ (t.cy = true ↔ k ≤ s.b.toNat))

/-- 44_engine.md R75: the ten non-jump instructions, and a JNC that is not taken, leave PC at the next address, 0 after 15. -/
def Obligations.NonJumpsAdvanceSequentially : Prop :=
  (∀ (i : Instr) (s t : State), isJump i = false → exec i s = .next t → Advances s t) ∧
  (∀ (im : Nibble) (s t : State), s.cy = true → exec (.jncIm im) s = .next t → Advances s t)

/-- 40_add.md R57: after an ADD, Cy says whether that addition carried, whatever it was before; no other instruction changes it. -/
def Obligations.EveryAddOverwritesCarry : Prop :=
  (∀ (im : Nibble) (s : State) (c : Bool) (t : State), exec (.addAIm im) { s with cy := c } = .next t → (t.cy = true ↔ s.a.toNat + im.toNat > 15)) ∧
  (∀ (im : Nibble) (s : State) (c : Bool) (t : State), exec (.addBIm im) { s with cy := c } = .next t → (t.cy = true ↔ s.b.toNat + im.toNat > 15)) ∧
  (∀ (i : Instr) (s t : State), isAdd i = false → exec i s = .next t → t.cy = s.cy)

/-- 43_jump.md R69: a jump changes PC only, a taken one to the immediate as an absolute address. -/
def Obligations.JumpsChangeOnlyPc : Prop :=
  ∀ (i : Instr) (s : State), isJump i = true → ∃ t, exec i s = .next t ∧ t = { s with pc := t.pc } ∧
    (t.pc = i.operand ∨ (t.pc = nextPc s.pc ∧ s.cy = true ∧ i.opcode = 0b1110#4))

/-- 10_state.md R13, the writes, an inference of the spec: with the next sample in range every instruction, in every operand form,
completes, and changes nothing but PC and what its row of the matrix says it writes. -/
def Obligations.InstructionsCompleteWithinTheirMatrixRow : Prop :=
  ∀ (i : Instr) (s : State), ((accessOf i).readsInput = true → NextInputInRange s) →
    ∃ t, exec i s = .next t ∧ OnlyWrites (accessOf i) s t

/-- 10_state.md R13, the reads, an inference of the spec: what an instruction writes depends only on what its row of the matrix says it
reads, PC included. Reading the Input Port is reading the supply and the sample counter, log entry 5. -/
def Obligations.ResultsDependOnlyOnMatrixReads : Prop :=
  ∀ (i : Instr) (s₁ s₂ t₁ : State), AgreeOnReads (accessOf i) s₁ s₂ → exec i s₁ = .next t₁ →
    ∃ t₂, exec i s₂ = .next t₂ ∧ AgreeOnWrites (accessOf i) t₁ t₂

/-! ### The ROM and the host's side -/

/-- 20_memory.md R26, an inference of the spec: no instruction reads or writes memory as data; exchanging the whole ROM changes nothing
in what an instruction does. -/
def Obligations.MemoryIsNeverData : Prop :=
  ∀ (i : Instr) (s : State) (m : Memory), exec i { s with rom := m } = withRom m (exec i s)

/-- 20_memory.md R27 with log entry 1: a step reads the ROM at PC and nowhere else, so it is the same under every program image that
holds the same word there (and refused alike where there is none). -/
def Obligations.StepReadsOnlyTheWordAtPc : Prop :=
  ∀ (s : State) (m : Memory), State.fetch { s with rom := m } = s.fetch → step { s with rom := m } = withRom m (step s)

/-- 20_memory.md R25, its total function (that the ROM stands in State is log entry 1): in a program image every one of the 16 addresses
reads as the word of `romWord` and nothing else is loaded; a step is the loop of R74 over that function as its parameter; and the
next state holds a program image with the same function. -/
def Obligations.RomIsATotalFixedFunction : Prop :=
  ∀ s : State, ProgramImage s →
    s.rom.length = 16 ∧ (∀ x : Nibble, s.rom.read x.toNat = some (s.romWord x)) ∧ (∀ x, 16 ≤ x → s.rom.read x = none) ∧
    step s = stepOn s.romWord s ∧ (∀ t, step s = .next t → ProgramImage t ∧ t.romWord = s.romWord)

/-- 20_memory.md R25 and 93_implementation_defined.md U7, with log entry 1: the machine steps on nothing but a program image of exactly
16 words, and with one it is never refused. -/
def Obligations.RefusedExactlyWithoutProgramImage : Prop :=
  ∀ (s : State) (r : Refusal), step s = .refused r ↔ ¬ ProgramImage s ∧ r = .noProgramImage

/-- 20_memory.md R38: through a run of any length every ROM word stays as loaded, and the fetch from a program image gives the loaded
word. -/
def Obligations.FetchAlwaysSeesTheLoadedImage : Prop :=
  ∀ (n : Nat) (s t : State), stepN n s = .next t → (∀ x, t.rom.read x = s.rom.read x) ∧ t.romWord = s.romWord ∧
    (ProgramImage s → t.fetch = s.rom.read t.pc.toNat)

/-- 20_memory.md R35 and 44_engine.md R81, with log entries 5 and 7: through a run of any length the output history only grows at its
end, and the supplier's values are consumed from the front, one for each sample while values are listed. -/
def Obligations.PortsFollowProgramOrder : Prop :=
  ∀ (n : Nat) (s t : State), stepN n s = .next t →
    (∃ new, t.events = s.events ++ new ∧ new.length ≤ n) ∧
    (∃ k, k ≤ n ∧ t.samples = s.samples + k ∧ t.supply = s.supply.drop k)

/-- 20_memory.md R25, 70_reset_and_hazards.md R102, 93_implementation_defined.md U7 (the ROM in State is log entry 1): a list of 16 bytes is
loaded with byte `i` at address `i` and touches nothing else; a list of any other length is refused by name. -/
def Obligations.LoadedImageIsTheRom : Prop :=
  (∀ (bytes : List Byte) (s : State), bytes.length = 16 → ∃ t, loadImage bytes s = .next t ∧
    (∀ i, t.rom.read i = bytes[i]?) ∧ ProgramImage t ∧ Memory.wf t.rom ∧ t = { s with rom := t.rom }) ∧
  (∀ (bytes : List Byte) (s : State), bytes.length ≠ 16 → loadImage bytes s = .refused (.notAProgramImage bytes.length))

/-- Log entry 2: from any ROM the placing makes a program image whose fetch gives the word; every other loaded word is as before, every
position without one holds `JMP` to itself, and every other field is as before. -/
def Obligations.PlacedWordIsFetched : Prop :=
  ∀ (s : State) (w : Nat), w < 256 →
    (s.withFetchWord 8 w).fetch = some (BitVec.ofNat 8 w) ∧
    ProgramImage (s.withFetchWord 8 w) ∧
    (∀ x b, x < 16 → x ≠ s.pc.toNat → s.rom.read x = some b → (s.withFetchWord 8 w).rom.read x = some b) ∧
    (∀ x, x < 16 → x ≠ s.pc.toNat → s.rom.read x = none → (s.withFetchWord 8 w).rom.read x = some (BitVec.ofNat 8 (0xF0 + x))) ∧
    s.withFetchWord 8 w = { s with rom := (s.withFetchWord 8 w).rom }

/-- 20_memory.md R27, an inference of the spec: of the 16 word selects exactly one is 1, and the word on `rom_data` is the one it selects;
in a program image it is the word the fetch gives. What `rom_data` is without a loaded word is the model's choice, log entry 9. -/
def Obligations.AddressDecodeIsOneHot : Prop :=
  ∀ s : State, ∃ i : Fin 16, wordSelect s.pc i = true ∧ (∀ j, wordSelect s.pc j = true → j = i) ∧
    romData s = s.rom.read i.val ∧ (ProgramImage s → romData s = s.fetch)

/-! ### Reset -/

/-- 70_reset_and_hazards.md R99 and R101: reset gives every state element its initial value. That a reset event empties the output history
is the spec's decision D16 and log entry 7. -/
def Obligations.ResetGivesInitialValues : Prop :=
  (State.reset.a = 0 ∧ State.reset.b = 0 ∧ State.reset.cy = false ∧ State.reset.pc = 0 ∧ State.reset.outp = 0 ∧
    State.reset.events = []) ∧
  (∀ s : State, (resetEvent s).a = 0 ∧ (resetEvent s).b = 0 ∧ (resetEvent s).cy = false ∧ (resetEvent s).pc = 0 ∧
    (resetEvent s).outp = 0 ∧ (resetEvent s).events = [])

/-- 70_reset_and_hazards.md R101, 10_state.md R23: of the core's own state nothing survives a reset. The image, the halt policy and the
supplier are the host's, and that a reset event keeps them is the model's choice, log entry 8; that it keeps the supply and the sample
counter is log entry 5, and the emptied history is log entry 7. That reset may come at any time and starts an empty history is the spec's decision D16. -/
def Obligations.NothingOfARunSurvivesReset : Prop :=
  (∀ s t : State, s.rom = t.rom → s.haltPolicy = t.haltPolicy → s.supply = t.supply → s.samples = t.samples →
    resetEvent s = resetEvent t) ∧
  (∀ s : State, (resetEvent s).rom = s.rom ∧ (resetEvent s).haltPolicy = s.haltPolicy)

/-- 70_reset_and_hazards.md R100, an inference of the spec: the first word fetched after reset is `ROM[0]`; an invalid one ends the run
with `DecodeError(0, ROM[0])`, and `JMP 0` and `JNC 0` halt at once, in the reset state, under the default halt policy. -/
def Obligations.FirstFetchAfterReset : Prop :=
  ∀ (s : State) (w : Byte), ProgramImage s → s.rom.read 0 = some w →
    (resetEvent s).fetch = some w ∧
    (opcodeOf w ∈ WellFormed.invalidOpcodes → step (resetEvent s) = .fault (.decodeError 0 w)) ∧
    (s.haltPolicy = .takenSelfJump → w = 0xF0 ∨ w = 0xE0 →
      (resetEvent s).status = some .halt ∧ ∀ budget, runFor budget 0 (resetEvent s) = .halted (resetEvent s) 0)

/-! ### The step, the status and the halt test -/

/-- 44_engine.md R74: when the word at PC decodes, a step is the halt test and then `exec` of the instruction, whose meaning holds the
PC update. That the halting step leaves the state as it is, as a next state, is log entry 3. -/
def Obligations.StepRunsTheDecodedInstruction : Prop :=
  ∀ (s : State) (w : Byte) (i : Instr), s.fetch = some w → decode w = .ok i →
    (s.status ≠ some .halt → step s = exec i s) ∧ (s.status = some .halt → step s = .next s)

/-- 44_engine.md R77: which words halt, under each of the three halt policies. The default policy is the spec's decision D5. -/
def Obligations.HaltTestOfEachPolicy : Prop :=
  ∀ (s : State) (w : Byte), s.fetch = some w →
    (s.haltPolicy = .takenSelfJump → (s.status = some .halt ↔
      operandOf w = s.pc ∧ (opcodeOf w = 0b1111#4 ∨ (opcodeOf w = 0b1110#4 ∧ s.cy = false)))) ∧
    (s.haltPolicy = .jmpSelfOnly → (s.status = some .halt ↔ operandOf w = s.pc ∧ opcodeOf w = 0b1111#4)) ∧
    (s.haltPolicy = .noDetection → s.status ≠ some .halt)

/-- 44_engine.md R77, an inference of the spec: under the default policy the run halts exactly where the step would leave the whole state
unchanged; and executing a halting jump, under any policy, is the same as halting (43_jump.md R70). Rests on log entry 3. -/
def Obligations.HaltExactlyAtFixedPoints : Prop :=
  (∀ s : State, s.haltPolicy = .takenSelfJump → (s.status = some .halt ↔ step s = .next s)) ∧
  (∀ (s : State) (w : Byte) (i : Instr), s.fetch = some w → decode w = .ok i → step s = exec i s)

/-- 44_engine.md R76, the spec's decision D6 and log entry 3: at HALT and at FAULT nothing changes any more, however often the clock
ticks; and a step that changes the state had status RUN. -/
def Obligations.EndedRunsStayEnded : Prop :=
  (∀ (n : Nat) (s : State), s.status = some .halt → stepN n s = .next s) ∧
  (∀ (n : Nat) (s : State), s.status = some .halt ∨ s.status = some .fault → clockEdge^[n] s = s) ∧
  (∀ s t : State, step s = .next t → t ≠ s → s.status = some .run)

/-- 44_engine.md R76: the status is a function of the fetched word, PC and Cy, under one halt policy. -/
def Obligations.StatusReadsOnlyWordPcAndCarry : Prop :=
  ∀ s t : State, s.haltPolicy = t.haltPolicy → s.fetch = t.fetch → s.pc = t.pc → s.cy = t.cy → s.status = t.status

/-- 10_state.md R14 and 70_reset_and_hazards.md R106, an inference of the spec: through a run of any length that fetches no ADD, Cy keeps
its value. -/
def Obligations.CarryLastsUntilTheNextAdd : Prop :=
  ∀ (n : Nat) (s t : State), (∀ (k : Nat) (g : State) (w : Byte), k < n → stepN k s = .next g → g.fetch = some w → opcodeOf w ≠ 0b0000#4 ∧ opcodeOf w ≠ 0b0101#4) →
    stepN n s = .next t → t.cy = s.cy

/-! ### Errors -/

/-- 60_exceptions.md R85: a step that fetches a word with an invalid opcode ends in `DecodeError` with the address and the whole word,
with no change of state; and `DecodeError` arises in no other way. -/
def Obligations.DecodeErrorExactlyAtInvalidWords : Prop :=
  (∀ (s : State) (w : Byte), s.fetch = some w → opcodeOf w ∈ WellFormed.invalidOpcodes →
    step s = .fault (.decodeError s.pc w) ∧ clockEdge s = s) ∧
  (∀ (s : State) (x : Nibble) (w : Byte), step s = .fault (.decodeError x w) →
    x = s.pc ∧ s.fetch = some w ∧ opcodeOf w ∈ WellFormed.invalidOpcodes)

/-- 60_exceptions.md R86 and log entry 6: an IN that is answered with a value above 15 ends in `OutOfBoundsInput` with PC and the value.
Failing fast is the spec's decision D8. -/
def Obligations.OutOfRangeSampleFailsFast : Prop :=
  ∀ (u : Nibble) (s : State) (v : Nat), s.supply.head? = some v → 15 < v →
    exec (.inA u) s = .fault (.outOfBoundsInput s.pc v) ∧ exec (.inB u) s = .fault (.outOfBoundsInput s.pc v)

/-- 60_exceptions.md R87: a step that faults is one of the two errors, from its own cause. -/
def Obligations.NoOtherErrorExists : Prop :=
  ∀ (s : State) (r : Fault), step s = .fault r → ∃ w, s.fetch = some w ∧
    ((opcodeOf w ∈ WellFormed.invalidOpcodes ∧ r = .decodeError s.pc w) ∨
     ((opcodeOf w = 0b0010#4 ∨ opcodeOf w = 0b0110#4) ∧
       ∃ v, s.supply.head? = some v ∧ 15 < v ∧ r = .outOfBoundsInput s.pc v))

/-- 44_engine.md R82 and 70_reset_and_hazards.md R104: where the host has loaded a program image and the supplier keeps its contract, a run of
any length goes on with both still holding, or ends in `DecodeError` at an invalid word; it is never refused. -/
def Obligations.KeptDutiesLeaveOnlyDecodeError : Prop :=
  ∀ (n : Nat) (s : State), ProgramImage s → SupplyInRange s →
    (∃ t, stepN n s = .next t ∧ ProgramImage t ∧ SupplyInRange t) ∨
    (∃ k t w, k < n ∧ stepN k s = .next t ∧ t.fetch = some w ∧ opcodeOf w ∈ WellFormed.invalidOpcodes ∧
      stepN n s = .fault (.decodeError t.pc w))

/-! ### The ports -/

/-- 42_io.md R63, with log entry 5: an executed IN takes exactly one sample and nothing else takes one. The order within the step is the
spec's decision D7. -/
def Obligations.OnlyInTakesASample : Prop :=
  ∀ (i : Instr) (s t : State), exec i s = .next t → ((accessOf i).readsInput = true → OneSample s t) ∧ ((accessOf i).readsInput = false → NoSample s t)

/-- 42_io.md R66, with log entry 7: an executed OUT emits exactly one event, with the value OUTP then holds, also when that value is the
one it held already; nothing else emits one or writes OUTP. -/
def Obligations.OnlyOutEmitsAnEvent : Prop :=
  ∀ (i : Instr) (s t : State), exec i s = .next t →
    ((accessOf i).writesOutp = true → OneOutput t.outp s t) ∧ ((accessOf i).writesOutp = false → NoOutput s t)

/-- 10_state.md R21, the spec's decision D1: the strobes are 1 exactly at the steps that take a sample and that emit an event, and both are
0 at a halt and at an invalid word. That they are also 0 where there is no program image, and so no status, is the model's choice, log
entry 9; the supply and the history are log entries 5 and 7. -/
def Obligations.StrobesMarkPortAccesses : Prop :=
  (∀ s t : State, step s = .next t →
    (inRe s = true → OneSample s t) ∧ (inRe s = false → NoSample s t) ∧
    (outWe s = true → OneOutput t.outp s t) ∧ (outWe s = false → NoOutput s t)) ∧
  (∀ s : State, s.status ≠ some .run → inRe s = false ∧ outWe s = false)

/-! ### Headline results -/

/-- 20_memory.md R25, 10_state.md R16 and 42_io.md R66, with log entries 1 and 7: every step, from every state, keeps the ROM in its
canonical form and OUTP equal to the value of the last output event, or 0 where there was none. -/
def Obligations.StepKeepsInvariant : Prop :=
  ∀ s t : State, Consistent s → step s = .next t → Consistent t

/-- 10_state.md R20 and 70_reset_and_hazards.md R101, with log entries 1, 7 and 8: the reset state meets the invariant, and so does the
state after a reset at any time, where the ROM, which a reset event keeps (log entry 8), is in its canonical form (log entry 1); the
history is log entry 7. -/
def Obligations.ResetMeetsInvariant : Prop :=
  Consistent State.reset ∧ ∀ s : State, Memory.wf s.rom → Consistent (resetEvent s)

/-- 30_encoding.md R47, an inference of the spec: the datapath driven by the control signals of the opcode table is the machine, for every
word, state, halt policy and supply. The halting step is log entry 3. -/
def Obligations.DatapathEqualsMachine : Prop :=
  ∀ s : State, datapathStep s = step s

/-- 30_encoding.md R47, an inference of the spec: no word enables two destinations, and an invalid opcode enables none. -/
def Obligations.AtMostOneDestination : Prop :=
  ∀ (op : Nibble) (cy : Bool),
    ([(controlOf op cy).aWe, (controlOf op cy).bWe, (controlOf op cy).outpWe, (controlOf op cy).pcLd].count true ≤ 1) ∧
    ((controlOf op cy).err = true ↔ op ∈ WellFormed.invalidOpcodes) ∧
    ((controlOf op cy).err = true → controlOf op cy = { err := true })

/-- 44_engine.md R80 and R84 (the uncounted halting fetch is the spec's decision D6): a caller's run is `Halted` with final state `f` after
`k` transitions exactly when `f` is what `k` steps lead to, the status is RUN at every point before and HALT there; and likewise
for the error result, with the state as it was before the failing step. An abort by `OutOfBoundsInput` is log entry 6; that
it is also answered at `k = budget`, where the status is RUN and the ceiling is reached, is log entry 10; and that a halt is a next
state is log entry 3. -/
def Obligations.RunResultIsTheEndOfTheSteps : Prop :=
  (∀ (budget : Nat) (s f : State) (k : Nat), runFor budget 0 s = .halted f k ↔
    k ≤ budget ∧ stepN k s = .next f ∧ f.status = some .halt ∧
    ∀ j g, j < k → stepN j s = .next g → g.status = some .run) ∧
  (∀ (budget : Nat) (s : State) (r : Fault) (f : State) (k : Nat), runFor budget 0 s = .aborted r f k ↔
    k ≤ budget ∧ stepN k s = .next f ∧ step f = .fault r ∧
    ∀ j g, j < k → stepN j s = .next g → g.status = some .run)

/-- 44_engine.md R83, the spec's decision D17: a caller's step ceiling changes no result of the core; a run that ended under one ceiling ends
in the same way under every larger one. That a run can still end by `OutOfBoundsInput` when its ceiling is reached is the model's choice,
log entry 10. -/
def Obligations.LargerCeilingKeepsTheResult : Prop :=
  ∀ (budget more n : Nat) (s : State),
    (∀ f k, runFor budget n s = .halted f k → runFor (budget + more) n s = .halted f k) ∧
    (∀ r f k, runFor budget n s = .aborted r f k → runFor (budget + more) n s = .aborted r f k)
end

