-- ==== Sys2Proof/Laws/Memory.lean ====
section
/-! SUPPORT. The laws of the ROM as data: what a read gives after a write and after loading an image, and that the canonical form is
kept. -/

namespace Sys2Proof.Laws

open Sys2Proof.Machine

@[simp] theorem read_nil (x : Nat) : Memory.read [] x = none := rfl

theorem read_cons (k : Nat) (v : Byte) (m : Memory) (x : Nat) :
    Memory.read ((k, v) :: m) x = if k = x then some v else Memory.read m x := rfl

/-- Nothing is read where every listed address is another one. -/
theorem read_eq_none (m : Memory) (x : Nat) (h : ∀ c ∈ m, c.1 ≠ x) : m.read x = none := by
  induction m with
  | nil => rfl
  | cons c m ih =>
    obtain ⟨k, v⟩ := c
    rw [read_cons, if_neg (h (k, v) (by simp)), ih fun c hc => h c (by simp [hc])]

/-- The word just written is read back. -/
theorem read_write_same (m : Memory) (x : Nat) (w : Byte) : (m.write x w).read x = some w := by
  induction m with
  | nil => simp [Memory.write, read_cons]
  | cons c m ih =>
    obtain ⟨k, v⟩ := c
    rw [Memory.write]
    split
    · simp [read_cons]
    · split
      · simp [read_cons]
      · rw [read_cons, if_neg (Ne.symm ‹_›), ih]

/-- A write leaves every other address as it was. -/
theorem read_write_other (m : Memory) (x y : Nat) (w : Byte) (h : y ≠ x) : (m.write x w).read y = m.read y := by
  induction m with
  | nil => simp [Memory.write, read_cons, h.symm]
  | cons c m ih =>
    obtain ⟨k, v⟩ := c
    rw [Memory.write]
    split
    · rw [read_cons, if_neg h.symm]
    · split
      · next hx => subst hx; rw [read_cons, if_neg h.symm, read_cons, if_neg h.symm]
      · rw [read_cons, ih, read_cons]

/-- Every cell after a write is the written one or was there before. -/
theorem mem_write (m : Memory) (x : Nat) (w : Byte) (c : Host.Cell) (h : c ∈ m.write x w) : c = (x, w) ∨ c ∈ m := by
  induction m with
  | nil => exact .inl (by simpa [Memory.write] using h)
  | cons d m ih =>
    obtain ⟨k, v⟩ := d
    rw [Memory.write] at h
    split at h
    · simpa using h
    · split at h
      · simp only [List.mem_cons] at h ⊢; tauto
      · simp only [List.mem_cons] at h ⊢
        rcases h with h | h
        · exact .inr (.inl h)
        · exact (ih h).imp_right .inr

/-- A write to one of the 16 addresses keeps the canonical form. -/
theorem wf_write (m : Memory) (x : Nat) (w : Byte) (hx : x < Config.romWords) (h : m.wf) : (m.write x w).wf := by
  refine ⟨?_, fun c hc => (mem_write m x w c hc).elim (fun e => by simpa [e] using hx) (h.2 c)⟩
  have hs := h.1
  clear h
  induction m with
  | nil => simp [Memory.write]
  | cons d m ih =>
    obtain ⟨k, v⟩ := d
    obtain ⟨hk, hm⟩ := List.pairwise_cons.1 hs
    rw [Memory.write]
    split
    · next hlt =>
      refine List.pairwise_cons.2 ⟨fun c hc => ?_, hs⟩
      rcases List.mem_cons.1 hc with rfl | hc
      · exact hlt
      · exact hlt.trans (hk c hc)
    · split
      · next hx => subst hx; exact List.pairwise_cons.2 ⟨hk, hm⟩
      · refine List.pairwise_cons.2 ⟨fun c hc => ?_, ih hm⟩
        rcases mem_write m x w c hc with rfl | hc
        · show k < x
          omega
        · exact hk c hc

/-- A word of a list that is laid out from address `x` on. -/
theorem read_romFrom (bytes : List Byte) (x i : Nat) : (romFrom x bytes).read (x + i) = bytes[i]? := by
  induction bytes generalizing x i with
  | nil => simp [romFrom]
  | cons w rest ih =>
    rw [romFrom, read_cons]
    cases i with
    | zero => simp
    | succ i => rw [if_neg (by omega), show x + (i + 1) = x + 1 + i by omega, ih]; simp

/-- The addresses a list takes when it is laid out from address `x` on. -/
theorem mem_romFrom (bytes : List Byte) (x : Nat) (c : Host.Cell) (h : c ∈ romFrom x bytes) :
    x ≤ c.1 ∧ c.1 < x + bytes.length := by
  induction bytes generalizing x with
  | nil => simp [romFrom] at h
  | cons w rest ih =>
    rcases List.mem_cons.1 h with rfl | h
    · simp
    · have := ih (x + 1) h
      simp only [List.length_cons]
      omega

/-- A list laid out from address `x` on is in the canonical form where it ends inside the ROM. -/
theorem wf_romFrom (bytes : List Byte) (x : Nat) (h : x + bytes.length ≤ Config.romWords) : (romFrom x bytes).wf := by
  refine ⟨?_, fun c hc => by have := mem_romFrom bytes x c hc; omega⟩
  clear h
  induction bytes generalizing x with
  | nil => simp [romFrom]
  | cons w rest ih =>
    refine List.pairwise_cons.2 ⟨fun c hc => ?_, ih (x + 1)⟩
    have := mem_romFrom rest (x + 1) c hc
    show x < c.1
    omega

/-- The addresses of a program image. -/
theorem map_isImage (m : Memory) (h : m.isImage = true) : m.map (·.1) = List.range Config.romWords := by
  simpa [Memory.isImage] using h

/-- A program image has the canonical form. -/
theorem wf_isImage (m : Memory) (h : m.isImage = true) : m.wf := by
  have h := map_isImage m h
  have hs : (m.map (·.1)).Pairwise (· < ·) := h ▸ List.pairwise_lt_range
  exact ⟨List.pairwise_map.1 hs, fun c hc => List.mem_range.1 (h ▸ List.mem_map_of_mem hc)⟩

/-- The addresses of a list laid out from address `x` on. -/
theorem map_romFrom (bytes : List Byte) (x : Nat) : (romFrom x bytes).map (·.1) = List.range' x bytes.length := by
  induction bytes generalizing x with
  | nil => rfl
  | cons w rest ih => simp [romFrom, ih, List.range'_succ]

/-- Sixteen bytes laid out from address 0 on are a program image. -/
theorem isImage_romFrom (bytes : List Byte) (h : bytes.length = 16) : (romFrom 0 bytes).isImage = true := by
  simp [Memory.isImage, map_romFrom, h, List.range_eq_range']

/-- Writing at an address that is listed keeps the list of addresses, where they rise. -/
theorem map_write (m : Memory) (x : Nat) (w : Byte) (hs : m.Pairwise fun c d => c.1 < d.1) (hx : x ∈ m.map (·.1)) :
    (m.write x w).map (·.1) = m.map (·.1) := by
  induction m with
  | nil => simp at hx
  | cons c m ih =>
    obtain ⟨k, v⟩ := c
    obtain ⟨hk, hm⟩ := List.pairwise_cons.1 hs
    rw [Memory.write]
    rcases List.mem_cons.1 hx with rfl | hx
    · simp
    · obtain ⟨d, hd, rfl⟩ := List.mem_map.1 hx
      have : k < d.1 := hk d hd
      rw [if_neg (by omega), if_neg (by omega), List.map_cons, ih hm (List.mem_map_of_mem hd), List.map_cons]

/-- Writing one of the 16 words keeps a program image. -/
theorem isImage_write (m : Memory) (x : Nibble) (w : Byte) (h : m.isImage = true) : (m.write x.toNat w).isImage = true := by
  have h' := map_isImage m h
  simp only [Memory.isImage, beq_iff_eq]
  rw [map_write m x.toNat w (wf_isImage m h).1 (h' ▸ List.mem_range.2 x.isLt), h']

/-- An address that is listed reads as some word. -/
theorem read_isSome (m : Memory) (x : Nat) (h : x ∈ m.map (·.1)) : (m.read x).isSome := by
  induction m with
  | nil => simp at h
  | cons c m ih =>
    obtain ⟨k, v⟩ := c
    rw [read_cons]
    split
    · rfl
    · exact ih ((List.mem_cons.1 h).resolve_left (Ne.symm ‹_›))

/-- In a program image every one of the 16 addresses reads as the word of the total function `romWord`. -/
theorem read_eq_romWord (s : State) (h : ProgramImage s) (x : Nibble) : s.rom.read x.toNat = some (s.romWord x) := by
  have h' := map_isImage s.rom h
  obtain ⟨w, hw⟩ := Option.isSome_iff_exists.1 (read_isSome s.rom x.toNat (h' ▸ List.mem_range.2 x.isLt))
  simp [State.romWord, hw]

/-- The completed ROM is a program image. -/
theorem isImage_filled (m : Memory) : m.filled.isImage = true := isImage_romFrom _ (by simp)

/-- A word of the completed ROM: the loaded one where there was one, else the fill. -/
theorem read_filled (m : Memory) (x : Nat) (h : x < 16) : m.filled.read x = some ((m.read x).getD (fillWord x)) := by
  have := read_romFrom ((List.range Config.romWords).map fun x => (m.read x).getD (fillWord x)) 0 x
  rw [Nat.zero_add] at this
  rw [Memory.filled, this]
  simp [h]

/-- Loading one word of the program keeps the canonical form, whatever the word and the address. -/
theorem wf_loadWord (s : State) (x : Nibble) (w : Byte) (h : Memory.wf s.rom) : Memory.wf (s.loadWord x w).rom :=
  wf_write s.rom x.toNat w x.isLt h

/-- The reset state's ROM has the canonical form. -/
theorem wf_reset : Memory.wf State.reset.rom := by decide

end Sys2Proof.Laws
end

