-- ==== Sys2Proof/Laws/State.lean ====
section
/-! SUPPORT. One lemma for each field under each update of the state, and the value of each field after reset: later proofs cite
these and unfold no record update. -/

namespace Sys2Proof.Laws

open Sys2Proof.Machine

@[simp] theorem setReg_a_a (s : State) (v : Nibble) : (s.setReg .a v).a = v := rfl
@[simp] theorem setReg_a_b (s : State) (v : Nibble) : (s.setReg .a v).b = s.b := rfl
@[simp] theorem setReg_a_cy (s : State) (v : Nibble) : (s.setReg .a v).cy = s.cy := rfl
@[simp] theorem setReg_a_pc (s : State) (v : Nibble) : (s.setReg .a v).pc = s.pc := rfl
@[simp] theorem setReg_a_outp (s : State) (v : Nibble) : (s.setReg .a v).outp = s.outp := rfl
@[simp] theorem setReg_a_rom (s : State) (v : Nibble) : (s.setReg .a v).rom = s.rom := rfl
@[simp] theorem setReg_a_haltPolicy (s : State) (v : Nibble) : (s.setReg .a v).haltPolicy = s.haltPolicy := rfl
@[simp] theorem setReg_a_supply (s : State) (v : Nibble) : (s.setReg .a v).supply = s.supply := rfl
@[simp] theorem setReg_a_samples (s : State) (v : Nibble) : (s.setReg .a v).samples = s.samples := rfl
@[simp] theorem setReg_a_events (s : State) (v : Nibble) : (s.setReg .a v).events = s.events := rfl

@[simp] theorem setReg_b_a (s : State) (v : Nibble) : (s.setReg .b v).a = s.a := rfl
@[simp] theorem setReg_b_b (s : State) (v : Nibble) : (s.setReg .b v).b = v := rfl
@[simp] theorem setReg_b_cy (s : State) (v : Nibble) : (s.setReg .b v).cy = s.cy := rfl
@[simp] theorem setReg_b_pc (s : State) (v : Nibble) : (s.setReg .b v).pc = s.pc := rfl
@[simp] theorem setReg_b_outp (s : State) (v : Nibble) : (s.setReg .b v).outp = s.outp := rfl
@[simp] theorem setReg_b_rom (s : State) (v : Nibble) : (s.setReg .b v).rom = s.rom := rfl
@[simp] theorem setReg_b_haltPolicy (s : State) (v : Nibble) : (s.setReg .b v).haltPolicy = s.haltPolicy := rfl
@[simp] theorem setReg_b_supply (s : State) (v : Nibble) : (s.setReg .b v).supply = s.supply := rfl
@[simp] theorem setReg_b_samples (s : State) (v : Nibble) : (s.setReg .b v).samples = s.samples := rfl
@[simp] theorem setReg_b_events (s : State) (v : Nibble) : (s.setReg .b v).events = s.events := rfl

@[simp] theorem setCy_a (s : State) (v : Bool) : (s.setCy v).a = s.a := rfl
@[simp] theorem setCy_b (s : State) (v : Bool) : (s.setCy v).b = s.b := rfl
@[simp] theorem setCy_cy (s : State) (v : Bool) : (s.setCy v).cy = v := rfl
@[simp] theorem setCy_pc (s : State) (v : Bool) : (s.setCy v).pc = s.pc := rfl
@[simp] theorem setCy_outp (s : State) (v : Bool) : (s.setCy v).outp = s.outp := rfl
@[simp] theorem setCy_rom (s : State) (v : Bool) : (s.setCy v).rom = s.rom := rfl
@[simp] theorem setCy_haltPolicy (s : State) (v : Bool) : (s.setCy v).haltPolicy = s.haltPolicy := rfl
@[simp] theorem setCy_supply (s : State) (v : Bool) : (s.setCy v).supply = s.supply := rfl
@[simp] theorem setCy_samples (s : State) (v : Bool) : (s.setCy v).samples = s.samples := rfl
@[simp] theorem setCy_events (s : State) (v : Bool) : (s.setCy v).events = s.events := rfl

@[simp] theorem advance_a (s : State) : (s.advance).a = s.a := rfl
@[simp] theorem advance_b (s : State) : (s.advance).b = s.b := rfl
@[simp] theorem advance_cy (s : State) : (s.advance).cy = s.cy := rfl
@[simp] theorem advance_pc (s : State) : (s.advance).pc = nextPc s.pc := rfl
@[simp] theorem advance_outp (s : State) : (s.advance).outp = s.outp := rfl
@[simp] theorem advance_rom (s : State) : (s.advance).rom = s.rom := rfl
@[simp] theorem advance_haltPolicy (s : State) : (s.advance).haltPolicy = s.haltPolicy := rfl
@[simp] theorem advance_supply (s : State) : (s.advance).supply = s.supply := rfl
@[simp] theorem advance_samples (s : State) : (s.advance).samples = s.samples := rfl
@[simp] theorem advance_events (s : State) : (s.advance).events = s.events := rfl

@[simp] theorem jump_a (s : State) (v : Nibble) : (s.jump v).a = s.a := rfl
@[simp] theorem jump_b (s : State) (v : Nibble) : (s.jump v).b = s.b := rfl
@[simp] theorem jump_cy (s : State) (v : Nibble) : (s.jump v).cy = s.cy := rfl
@[simp] theorem jump_pc (s : State) (v : Nibble) : (s.jump v).pc = v := rfl
@[simp] theorem jump_outp (s : State) (v : Nibble) : (s.jump v).outp = s.outp := rfl
@[simp] theorem jump_rom (s : State) (v : Nibble) : (s.jump v).rom = s.rom := rfl
@[simp] theorem jump_haltPolicy (s : State) (v : Nibble) : (s.jump v).haltPolicy = s.haltPolicy := rfl
@[simp] theorem jump_supply (s : State) (v : Nibble) : (s.jump v).supply = s.supply := rfl
@[simp] theorem jump_samples (s : State) (v : Nibble) : (s.jump v).samples = s.samples := rfl
@[simp] theorem jump_events (s : State) (v : Nibble) : (s.jump v).events = s.events := rfl

@[simp] theorem portOut_a (s : State) (v : Nibble) : (s.portOut v).a = s.a := rfl
@[simp] theorem portOut_b (s : State) (v : Nibble) : (s.portOut v).b = s.b := rfl
@[simp] theorem portOut_cy (s : State) (v : Nibble) : (s.portOut v).cy = s.cy := rfl
@[simp] theorem portOut_pc (s : State) (v : Nibble) : (s.portOut v).pc = s.pc := rfl
@[simp] theorem portOut_outp (s : State) (v : Nibble) : (s.portOut v).outp = v := rfl
@[simp] theorem portOut_rom (s : State) (v : Nibble) : (s.portOut v).rom = s.rom := rfl
@[simp] theorem portOut_haltPolicy (s : State) (v : Nibble) : (s.portOut v).haltPolicy = s.haltPolicy := rfl
@[simp] theorem portOut_supply (s : State) (v : Nibble) : (s.portOut v).supply = s.supply := rfl
@[simp] theorem portOut_samples (s : State) (v : Nibble) : (s.portOut v).samples = s.samples := rfl
@[simp] theorem portOut_events (s : State) (v : Nibble) : (s.portOut v).events = s.events ++ [v] := rfl

@[simp] theorem loadWord_a (s : State) (x : Nibble) (w : Byte) : (s.loadWord x w).a = s.a := rfl
@[simp] theorem loadWord_b (s : State) (x : Nibble) (w : Byte) : (s.loadWord x w).b = s.b := rfl
@[simp] theorem loadWord_cy (s : State) (x : Nibble) (w : Byte) : (s.loadWord x w).cy = s.cy := rfl
@[simp] theorem loadWord_pc (s : State) (x : Nibble) (w : Byte) : (s.loadWord x w).pc = s.pc := rfl
@[simp] theorem loadWord_outp (s : State) (x : Nibble) (w : Byte) : (s.loadWord x w).outp = s.outp := rfl
@[simp] theorem loadWord_rom (s : State) (x : Nibble) (w : Byte) : (s.loadWord x w).rom = s.rom.write x.toNat w := rfl
@[simp] theorem loadWord_haltPolicy (s : State) (x : Nibble) (w : Byte) : (s.loadWord x w).haltPolicy = s.haltPolicy := rfl
@[simp] theorem loadWord_supply (s : State) (x : Nibble) (w : Byte) : (s.loadWord x w).supply = s.supply := rfl
@[simp] theorem loadWord_samples (s : State) (x : Nibble) (w : Byte) : (s.loadWord x w).samples = s.samples := rfl
@[simp] theorem loadWord_events (s : State) (x : Nibble) (w : Byte) : (s.loadWord x w).events = s.events := rfl

@[simp] theorem reg_a (s : State) : s.reg .a = s.a := rfl
@[simp] theorem reg_b (s : State) : s.reg .b = s.b := rfl
@[simp] theorem immediate_eq (im : Nibble) : immediate im = im := rfl

end Sys2Proof.Laws
end

