-- ==== Sys2Proof/Laws/Ops.lean ====
section
/-! SUPPORT. For each shared operation, once, everything it can do. -/

namespace Sys2Proof.Laws

open Sys2Proof.Machine

/-- The PC incrementer as arithmetic (10_state.md R15). -/
theorem nextPc_toNat (pc : Nibble) : (nextPc pc).toNat = (pc.toNat + 1) % 16 := by
  simp [nextPc, BitVec.toNat_add]

/-- PC never is its own successor. -/
theorem nextPc_ne (pc : Nibble) : nextPc pc ≠ pc := by
  revert pc; decide

/-- The adder's result as arithmetic (40_add.md R53). -/
theorem aluResult_toNat (x y : Nibble) : (aluResult x y).toNat = (x.toNat + y.toNat) % 16 := by
  revert x y; decide

/-- The adder's carry out as arithmetic (40_add.md R53). -/
theorem aluCarry_iff (x y : Nibble) : aluCarry x y = true ↔ x.toNat + y.toNat > 15 := by
  revert x y; decide

/-- `PortIn()` either takes one sample, the listed value where there is one, or answers a listed value out of range and takes
nothing. -/
theorem portIn_cases (s : State) :
    (∃ v s', s.portIn = .ok (v, s') ∧ s' = { s with supply := s.supply.tail, samples := s.samples + 1 } ∧
      (∀ x, s.supply.head? = some x → x ≤ 15 ∧ v.toNat = x) ∧ (s.supply = [] → v = Config.inputSample s.samples)) ∨
    (∃ x, s.portIn = .error x ∧ s.supply.head? = some x ∧ 15 < x) := by
  rcases hs : s.supply with _ | ⟨x, rest⟩
  · exact .inl ⟨Config.inputSample s.samples, { s with supply := [], samples := s.samples + 1 },
      by simp [State.portIn, hs], by simp, by simp, fun _ => rfl⟩
  · by_cases hx : x ≤ 15
    · exact .inl ⟨BitVec.ofNat 4 x, { s with supply := rest, samples := s.samples + 1 },
        by simp [State.portIn, hs, hx], by simp, by simp [hx]; omega, by simp⟩
    · exact .inr ⟨x, by simp [State.portIn, hs, hx], by simp, by omega⟩

/-- An input into a register either completes with one sample taken and the register, PC and the supply alone changed, or ends the
run with the value out of range. -/
theorem inputTo_cases (s : State) (r : Reg) :
    (∃ v, s.inputTo r = .next ((State.setReg { s with supply := s.supply.tail, samples := s.samples + 1 } r v).advance) ∧
      (∀ x, s.supply.head? = some x → x ≤ 15 ∧ v.toNat = x) ∧ (s.supply = [] → v = Config.inputSample s.samples)) ∨
    (∃ x, s.inputTo r = .fault (.outOfBoundsInput s.pc x) ∧ s.supply.head? = some x ∧ 15 < x) := by
  obtain ⟨v, s', h, rfl, hv⟩ | ⟨x, h, hx⟩ := portIn_cases s
  · exact .inl ⟨v, by simp only [State.inputTo, h, State.copyTo], hv⟩
  · exact .inr ⟨x, by simp only [State.inputTo, h, State.raiseOutOfBoundsInput, raise], hx⟩

/-- `addTo` writes the register, Cy and PC. -/
theorem addTo_eq (s : State) (r : Reg) (im : Nibble) :
    s.addTo r im = { (s.setReg r (aluResult (s.reg r) im)) with cy := aluCarry (s.reg r) im, pc := nextPc s.pc } := by
  cases r <;> rfl

/-- `copyTo` writes the register and PC. -/
theorem copyTo_eq (s : State) (r : Reg) (v : Nibble) :
    s.copyTo r v = { (s.setReg r v) with pc := nextPc s.pc } := by
  cases r <;> rfl

/-- `output` writes OUTP, emits one event, and writes PC. -/
theorem output_eq (s : State) (v : Nibble) :
    s.output v = { s with outp := v, events := s.events ++ [v], pc := nextPc s.pc } := rfl

/-- `withFetchWord` completes the ROM and places the word, and touches nothing else. -/
theorem withFetchWord_eq (s : State) (nbits w : Nat) :
    s.withFetchWord nbits w = { s with rom := s.rom.filled.write s.pc.toNat (tableWord nbits w) } := rfl

/-- Where there is a program image the fetch gives its word at PC. -/
theorem fetch_image (s : State) (h : ProgramImage s) : s.fetch = some (s.romWord s.pc) := if_pos h

/-- The fetch gives a word exactly where there is a program image, and then it is the word at PC. -/
theorem fetch_cases (s : State) :
    (s.rom.isImage = false ∧ s.fetch = none) ∨ (ProgramImage s ∧ s.fetch = some (s.romWord s.pc)) := by
  cases h : s.rom.isImage
  · exact .inl ⟨rfl, by simp [State.fetch, h]⟩
  · exact .inr ⟨h, fetch_image s h⟩

end Sys2Proof.Laws
end

