-- ==== Sys2Proof/Laws/PerInstr.lean ====
section
/-! SUPPORT. The encoding of every instruction, constructor by constructor: its word has the instruction's opcode in the high nibble,
an opcode the map admits, and its operand in the low nibble (30_encoding.md R39, R41, R45). -/

namespace Sys2Proof.Laws

/-- The word of `i` carries its opcode, a valid one, and its operand. -/
def Encoding.Statement (i : Instr) : Prop :=
  opcodeOf (encode i) = i.opcode ∧ operandOf (encode i) = i.operand ∧ WellFormed.opcode i.opcode = true

theorem Encoding.addAIm (f : Nibble) : Encoding.Statement (.addAIm f) := by
  unfold Encoding.Statement
  revert f
  decide

theorem Encoding.movAB (f : Nibble) : Encoding.Statement (.movAB f) := by
  unfold Encoding.Statement
  revert f
  decide

theorem Encoding.inA (f : Nibble) : Encoding.Statement (.inA f) := by
  unfold Encoding.Statement
  revert f
  decide

theorem Encoding.movAIm (f : Nibble) : Encoding.Statement (.movAIm f) := by
  unfold Encoding.Statement
  revert f
  decide

theorem Encoding.movBA (f : Nibble) : Encoding.Statement (.movBA f) := by
  unfold Encoding.Statement
  revert f
  decide

theorem Encoding.addBIm (f : Nibble) : Encoding.Statement (.addBIm f) := by
  unfold Encoding.Statement
  revert f
  decide

theorem Encoding.inB (f : Nibble) : Encoding.Statement (.inB f) := by
  unfold Encoding.Statement
  revert f
  decide

theorem Encoding.movBIm (f : Nibble) : Encoding.Statement (.movBIm f) := by
  unfold Encoding.Statement
  revert f
  decide

theorem Encoding.outB (f : Nibble) : Encoding.Statement (.outB f) := by
  unfold Encoding.Statement
  revert f
  decide

theorem Encoding.outIm (f : Nibble) : Encoding.Statement (.outIm f) := by
  unfold Encoding.Statement
  revert f
  decide

theorem Encoding.jncIm (f : Nibble) : Encoding.Statement (.jncIm f) := by
  unfold Encoding.Statement
  revert f
  decide

theorem Encoding.jmpIm (f : Nibble) : Encoding.Statement (.jmpIm f) := by
  unfold Encoding.Statement
  revert f
  decide

end Sys2Proof.Laws
end

