-- ==== Sys2Proof/Laws/Step.lean ====
section
/-! SUPPORT. What one decoding, one execution and one step can do. -/

namespace Sys2Proof.Laws

open Sys2Proof.Machine

/-- An opcode is one of the four invalid ones exactly when the check refuses it. -/
theorem opcode_check_iff (op : Nibble) : WellFormed.opcode op = false ↔ op ∈ WellFormed.invalidOpcodes := by
  revert op; decide

/-- A word whose opcode passes the check decodes to an instruction with its opcode and operand; any other is rejected with itself. -/
theorem decode_cases (w : Byte) :
    (∃ i, decode w = .ok i ∧ i.opcode = opcodeOf w ∧ i.operand = operandOf w ∧ WellFormed.opcode (opcodeOf w) = true) ∨
    (decode w = .error (.unrecognizedOpcode w) ∧ WellFormed.opcode (opcodeOf w) = false) := by
  have table : ∀ op : Nibble, op = 0 ∨ op = 1 ∨ op = 2 ∨ op = 3 ∨ op = 4 ∨ op = 5 ∨ op = 6 ∨ op = 7 ∨ op = 8 ∨ op = 9 ∨ op = 10 ∨
      op = 11 ∨ op = 12 ∨ op = 13 ∨ op = 14 ∨ op = 15 := by decide
  rcases table (opcodeOf w) with h | h | h | h | h | h | h | h | h | h | h | h | h | h | h | h <;>
    (unfold decode; simp [h, Instr.opcode, Instr.operand, WellFormed.opcode, WellFormed.invalidOpcodes])

/-- Where an instruction other than an IN runs, it answers a next state. -/
theorem exec_completes (i : Instr) (s : State) (h : (accessOf i).readsInput = false) : ∃ t, exec i s = .next t := by
  cases i with
  | inA u => cases h
  | inB u => cases h
  | jncIm im => by_cases hc : s.cy = false <;> simp [exec, execJncIm, hc]
  | addAIm im => exact ⟨_, rfl⟩
  | movAB u => exact ⟨_, rfl⟩
  | movAIm im => exact ⟨_, rfl⟩
  | movBA u => exact ⟨_, rfl⟩
  | addBIm im => exact ⟨_, rfl⟩
  | movBIm im => exact ⟨_, rfl⟩
  | outB u => exact ⟨_, rfl⟩
  | outIm im => exact ⟨_, rfl⟩
  | jmpIm im => exact ⟨_, rfl⟩

/-- Everything a step can do: refuse where there is no program image, raise `DecodeError` at an invalid word, halt with the state as it
is, or run the decoded instruction. -/
theorem step_cases (s : State) :
    (s.fetch = none ∧ s.rom.isImage = false ∧ step s = .refused .noProgramImage) ∨
    (∃ w, s.fetch = some w ∧ WellFormed.opcode (opcodeOf w) = false ∧ s.status = some .fault ∧
      step s = .fault (.decodeError s.pc w)) ∨
    (∃ w i, s.fetch = some w ∧ decode w = .ok i ∧ i.opcode = opcodeOf w ∧ i.operand = operandOf w ∧
      selfJump s.haltPolicy (opcodeOf w) (operandOf w) s.pc s.cy = true ∧ s.status = some .halt ∧ step s = .next s) ∨
    (∃ w i, s.fetch = some w ∧ decode w = .ok i ∧ i.opcode = opcodeOf w ∧ i.operand = operandOf w ∧
      selfJump s.haltPolicy (opcodeOf w) (operandOf w) s.pc s.cy = false ∧ s.status = some .run ∧ step s = exec i s) := by
  obtain ⟨hi, hf⟩ | ⟨hi, hf⟩ := fetch_cases s
  · exact .inl ⟨hf, hi, by simp [step, hi]⟩
  · have hs : step s = stepOn s.romWord s := if_pos hi
    rw [hs, stepOn]
    generalize s.romWord s.pc = w at *
    obtain ⟨i, hd, ho, hp, hw⟩ | ⟨hd, hw⟩ := decode_cases w
    · cases hj : selfJump s.haltPolicy (opcodeOf w) (operandOf w) s.pc s.cy
      · exact .inr (.inr (.inr ⟨w, i, hf, hd, ho, hp, hj, by simp [State.status, statusOf, hf, hw, hj], by simp [hd]⟩))
      · exact .inr (.inr (.inl ⟨w, i, hf, hd, ho, hp, hj, by simp [State.status, statusOf, hf, hw, hj], by simp [hd]⟩))
    · exact .inr (.inl ⟨w, hf, hw, by simp [State.status, statusOf, hf, hw], by simp [hd, State.raiseDecodeError, raise]⟩)

/-- `k + 1` steps are one step and then `k`. -/
theorem stepN_succ (k : Nat) (s t : State) (h : step s = .next t) : stepN (k + 1) s = stepN k t := by
  simp [stepN, h]

/-- A first step that stops stops the run. -/
theorem stepN_succ_cases (k : Nat) (s t : State) (h : stepN (k + 1) s = .next t) :
    ∃ u, step s = .next u ∧ stepN k u = .next t := by
  rcases hs : step s with u | r | r
  · exact ⟨u, rfl, by simpa [stepN, hs] using h⟩
  · simp [stepN, hs] at h
  · simp [stepN, hs] at h

/-- The halt test of the two detecting policies as conditions on the word, PC and Cy (44_engine.md R77). -/
theorem selfJump_iff (op im pc : Nibble) (cy : Bool) :
    (selfJump .takenSelfJump op im pc cy = true ↔ im = pc ∧ (op = 0b1111#4 ∨ (op = 0b1110#4 ∧ cy = false))) ∧
    (selfJump .jmpSelfOnly op im pc cy = true ↔ im = pc ∧ op = 0b1111#4) ∧
    selfJump .noDetection op im pc cy = false := by
  simp only [selfJump, Bool.or_eq_true, Bool.and_eq_true, beq_iff_eq, Bool.not_eq_true']
  tauto

/-- One turn of a run: the halt, the end the step gives, or the state after the step. -/
theorem turn_cases (n : Nat) (s : State) :
    (s.status = some .halt ∧ turn n s = .inl (.halted s n)) ∨
    (s.status ≠ some .halt ∧
      ((∃ r, step s = .fault r ∧ turn n s = .inl (.aborted r s n)) ∨
       (∃ r, step s = .refused r ∧ turn n s = .inl (.noProgram r s n)) ∨
       (∃ t, step s = .next t ∧ turn n s = .inr t))) := by
  by_cases hh : s.status = some .halt
  · exact .inl ⟨hh, by simp [turn, hh]⟩
  · refine .inr ⟨hh, ?_⟩
    rcases hs : step s with t | r | r
    · exact .inr (.inr ⟨t, rfl, by simp [turn, hh, hs]⟩)
    · exact .inl ⟨r, rfl, by simp [turn, hh, hs]⟩
    · exact .inr (.inl ⟨r, rfl, by simp [turn, hh, hs]⟩)

end Sys2Proof.Laws
end

