-- ==== Sys2Proof/Tests/Slice0.lean ====
section
/-! SUPPORT. The implementer's tests. Expected results come from spec/95_test_vectors.md (the vector's id is named), and the witnesses
show, for each statement with hypotheses, states and operands that meet all of them, at the boundaries where clauses meet. -/

namespace Sys2Proof.Tests

open Sys2Proof.Machine

/-! ### Helpers -/

/-- A state with the vectors' five elements, the word `w` at PC and the supply `ins`. -/
def st (a b : Nibble) (cy : Bool) (pc outp : Nibble) (w : Nat) (ins : List Nat := []) : State :=
  State.withFetchWord { State.reset with a := a, b := b, cy := cy, pc := pc, outp := outp, supply := ins } 8 w

/-- The tuple (A, B, Cy, PC, OUTP) of the vectors, with the history. -/
structure Row where
  a : Nibble
  b : Nibble
  cy : Bool
  pc : Nibble
  outp : Nibble
  events : List Nibble
  deriving DecidableEq, Repr

/-- The vector's tuple after an outcome that goes on. -/
def tup : Host.Outcome State Fault Refusal → Option Row
  | .next t => some ⟨t.a, t.b, t.cy, t.pc, t.outp, t.events⟩
  | .fault _ => none
  | .refused _ => none

/-- The error of an outcome. -/
def err : Host.Outcome State Fault Refusal → Option Fault
  | .fault r => some r
  | .next _ => none
  | .refused _ => none

/-- The refusal of an outcome. -/
def ref : Host.Outcome State Fault Refusal → Option Refusal
  | .refused r => some r
  | .next _ => none
  | .fault _ => none

/-- What a decoded word gives. -/
def dec (w : Byte) : Option Instr := (decode w).toOption

/-! ### The well-formedness checks refuse ill-formed terms -/

theorem test_wf_opcode : WellFormed.opcode 0b1000 = false ∧ WellFormed.opcode 0b1010 = false ∧ WellFormed.opcode 0b1100 = false ∧
    WellFormed.opcode 0b1101 = false ∧ WellFormed.opcode 0b1001 = true := by decide
theorem test_wf_canonical : WellFormed.canonical (.movAB 15) = false ∧ WellFormed.canonical (.movAB 0) = true := by decide
theorem test_wf_image : WellFormed.image (List.replicate 15 0) = false ∧ WellFormed.image (List.replicate 17 0) = false ∧
    WellFormed.image (List.replicate 16 0) = true := by decide
theorem test_wf_supply : WellFormed.supply [3, 16] = false ∧ WellFormed.supply [0, 15] = true := by decide
theorem test_wf_memory : ¬ Memory.wf [(1, 0), (0, 0)] ∧ ¬ Memory.wf [(16, 0)] ∧ Memory.wf [(0, 1), (15, 0)] := by decide

/-! ### Decoding: the words of D1 to D25, written bit by bit -/

theorem test_decode_add : dec 0b00000000 = some (.addAIm 0) ∧ dec 0b00001111 = some (.addAIm 15) ∧
    dec 0b01010111 = some (.addBIm 7) := by decide
theorem test_decode_mov : dec 0b00010000 = some (.movAB 0) ∧ dec 0b00011111 = some (.movAB 15) ∧ dec 0b00110011 = some (.movAIm 3) ∧
    dec 0b01000000 = some (.movBA 0) ∧ dec 0b01001010 = some (.movBA 10) ∧ dec 0b01111100 = some (.movBIm 12) := by decide
theorem test_decode_io : dec 0b00100000 = some (.inA 0) ∧ dec 0b01100000 = some (.inB 0) ∧ dec 0b10010000 = some (.outB 0) ∧
    dec 0b10010111 = some (.outB 7) ∧ dec 0b10111010 = some (.outIm 10) := by decide
theorem test_decode_jump : dec 0b11100001 = some (.jncIm 1) ∧ dec 0b11110011 = some (.jmpIm 3) ∧
    dec 0b11111111 = some (.jmpIm 15) := by decide
theorem test_decode_invalid : dec 0b10000000 = none ∧ dec 0b10001111 = none ∧ dec 0b10100000 = none ∧ dec 0b10101111 = none ∧
    dec 0b11000000 = none ∧ dec 0b11001111 = none ∧ dec 0b11010000 = none ∧ dec 0b11011111 = none := by decide
theorem test_encode_keeps_field : encode (.movAB 15) = 0x1F ∧ encode (.jncIm 1) = 0xE1 := by decide
theorem test_decodeTableWord : decodeTableWord 8 0x57 = some (.addBIm 7) ∧ decodeTableWord 8 0x80 = none := by decide

/-! ### One step of each instruction -/

/-- A1, the source's example. -/
theorem test_addA_carry : tup (step (st 15 0 false 0 0 0x02)) = some ⟨1, 0, true, 1, 0, []⟩ := by decide
/-- A2: adding zero keeps A and clears a set Cy. -/
theorem test_addA_zero : tup (step (st 7 3 true 5 9 0x00)) = some ⟨7, 3, false, 6, 9, []⟩ := by decide
/-- A12. -/
theorem test_addB_largest : tup (step (st 3 15 false 14 1 0x5F)) = some ⟨3, 14, true, 15, 1, []⟩ := by decide
/-- A15: a sum of exactly 15 does not carry. -/
theorem test_addB_boundary : tup (step (st 0 5 true 9 0 0x5A)) = some ⟨0, 15, false, 10, 0, []⟩ := by decide
/-- M2: the low nibble is not added. -/
theorem test_movAB_low_nibble : tup (step (st 2 9 true 4 0 0x1F)) = some ⟨9, 9, true, 5, 0, []⟩ := by decide
/-- M6: PC wraps. -/
theorem test_movAIm_wrap : tup (step (st 0 0 false 15 0 0x3F)) = some ⟨15, 0, false, 0, 0, []⟩ := by decide
/-- M9: OUTP is not B. -/
theorem test_movBA : tup (step (st 0 13 true 9 13 0x40)) = some ⟨0, 0, true, 10, 13, []⟩ := by decide
/-- M10. -/
theorem test_movBIm_wrap : tup (step (st 1 6 false 15 0 0x7C)) = some ⟨1, 12, false, 0, 0, []⟩ := by decide
/-- IO2, IO3. -/
theorem test_inA : tup (step (st 9 1 true 3 2 0x2C [0])) = some ⟨0, 1, true, 4, 2, []⟩ ∧
    tup (step (st 9 1 true 15 2 0x20 [15])) = some ⟨15, 1, true, 0, 2, []⟩ := by decide
/-- IO4. -/
theorem test_inB : tup (step (st 4 0 false 7 0 0x60 [12, 3])) = some ⟨4, 12, false, 8, 0, []⟩ := by decide
/-- 60_exceptions.md R86: 16 is refused, neither clamped nor truncated. -/
theorem test_in_out_of_range : err (step (st 4 0 false 7 0 0x60 [16])) = some (.outOfBoundsInput 7 16) := by decide
/-- IO8: an event also for an unchanged value, and no OUT reads A. -/
theorem test_outB : tup (step (st 1 0 true 6 0 0x97)) = some ⟨1, 0, true, 7, 0, [0]⟩ := by decide
/-- IO12. -/
theorem test_outIm : tup (step (st 2 3 true 15 1 0xBF)) = some ⟨2, 3, true, 0, 15, [15]⟩ := by decide
/-- J7, J8. -/
theorem test_jnc : tup (step (st 14 0 false 2 0 0xE1)) = some ⟨14, 0, false, 1, 0, []⟩ ∧
    tup (step (st 0 0 true 2 0 0xE1)) = some ⟨0, 0, true, 3, 0, []⟩ := by decide
/-- J9. -/
theorem test_jnc_wrap : tup (step (st 0 0 true 15 0 0xE7)) = some ⟨0, 0, true, 0, 0, []⟩ := by decide
/-- J1, J3. -/
theorem test_jmp : tup (step (st 0 0 true 9 0 0xF1)) = some ⟨0, 0, true, 1, 0, []⟩ ∧
    tup (step (st 5 6 true 15 7 0xF0)) = some ⟨5, 6, true, 0, 7, []⟩ := by decide

/-! ### Halt, errors, reset, loading -/

/-- J5, J12, J14 halt with the state unchanged; J11, J13, J15 run. -/
theorem test_halt : (st 1 2 true 4 3 0xF4).status = some .halt ∧ (st 0 0 false 2 0 0xE2).status = some .halt ∧
    (st 3 4 false 15 5 0xEF).status = some .halt ∧ (st 0 0 true 2 0 0xE2).status = some .run ∧
    (st 0 0 false 2 0 0xE3).status = some .run ∧ (st 3 4 true 15 5 0xEF).status = some .run ∧
    tup (step (st 1 2 true 4 3 0xF4)) = some ⟨1, 2, true, 4, 3, []⟩ := by decide
/-- The other two policies, as 95_test_vectors.md 2.5 says. -/
theorem test_halt_policies :
    State.status { st 0 0 false 2 0 0xE2 with haltPolicy := .jmpSelfOnly } = some .run ∧
    State.status { st 0 0 false 2 0 0xF2 with haltPolicy := .jmpSelfOnly } = some .halt ∧
    State.status { st 0 0 false 2 0 0xF2 with haltPolicy := .noDetection } = some .run := by decide
/-- X2, X4, X6, X8. -/
theorem test_decode_error : err (step (st 1 2 true 3 4 0x8F)) = some (.decodeError 3 0x8F) ∧
    err (step (st 0 0 false 5 0 0xA5)) = some (.decodeError 5 0xA5) ∧ err (step (st 0 0 true 12 0 0xCC)) = some (.decodeError 12 0xCC) ∧
    err (step (st 9 9 false 13 9 0xDD)) = some (.decodeError 13 0xDD) := by decide
/-- 20_memory.md R25: no image, and 15 words are none. -/
theorem test_no_image : ref (step State.reset) = some .noProgramImage ∧
    ref (step { State.reset with rom := romFrom 0 (List.replicate 15 0x33) }) = some .noProgramImage := by decide
/-- Z1. -/
theorem test_reset_event : tup (.next (resetEvent { st 9 4 true 11 7 0x00 with events := [7] })) = some ⟨0, 0, false, 0, 0, []⟩ := by
  decide
/-- 20_memory.md R25: byte `i` of the image is `ROM[i]`. -/
theorem test_load : ref (loadImage [0x33, 0x40] State.reset) = some (.notAProgramImage 2) ∧
    (romFrom 0 ([0x33, 0x40] ++ List.replicate 13 0 ++ [0xFF])).read 1 = some 0x40 ∧
    (romFrom 0 ([0x33, 0x40] ++ List.replicate 13 0 ++ [0xFF])).read 15 = some 0xFF ∧
    (romFrom 0 ([0x33, 0x40] ++ List.replicate 13 0 ++ [0xFF])).read 16 = none := by decide
/-- PR6: `JMP 0` at 0 halts with no transition. -/
theorem test_run_shortest : runFor 5 0 (st 0 0 false 0 0 0xF0) = .halted (st 0 0 false 0 0 0xF0) 0 := by decide
theorem test_control : controlOf 0b0000 false = { aWe := true, cyWe := true, value := .sumOfA } ∧
    (controlOf 0b1110 true).pcLd = false ∧ (controlOf 0b1101 false).err = true := by decide
theorem test_strobes : inRe (st 0 0 false 0 0 0x20) = true ∧ outWe (st 0 0 false 0 0 0xB0) = true ∧
    inRe (st 0 0 false 0 0 0xF0) = false := by decide

/-! ### Witnesses: each statement's hypotheses can be met -/

theorem test_witness_DecoderContract : opcodeOf 0x10 = opcodeOf 0x1F ∧ decode 0x33 = .ok (.movAIm 3) := ⟨by decide, rfl⟩
theorem test_witness_InvalidOpcodesAreExactlyFour :
    (st 0 0 false 0 0 0x80).fetch = some 0x80 ∧ opcodeOf 0x80 = 0b1000#4 ∧ opcodeOf 0xAF = 0b1010#4 ∧ opcodeOf 0xC0 = 0b1100#4 ∧
    (st 0 0 false 15 0 0xDF).fetch = some 0xDF ∧ opcodeOf 0xDF = 0b1101#4 := by decide
theorem test_witness_EncodeDecodeRoundTrip : decode 0x1F = .ok (.movAB 15) := rfl
theorem test_witness_UnusedLowNibbleIsIgnored :
    (accessOf (.movAB 0)).usesIm = false ∧ (Instr.movAB 0).opcode = (Instr.movAB 15).opcode ∧
    (accessOf (.inA 0)).usesIm = false ∧ (Instr.inA 0).opcode = (Instr.inA 15).opcode := by decide
theorem test_witness_InTakesOneSample :
    NextInputInRange (st 0 0 false 0 0 0x20 [15]) ∧ (st 0 0 false 0 0 0x20 [15]).supply.head? = some 15 ∧
    NextInputInRange (st 0 0 false 0 0 0x20 [0]) ∧ NextInputInRange (st 0 0 false 0 0 0x20 []) :=
  ⟨by intro v h; cases h; decide, rfl, by intro v h; cases h; decide, by intro v h; cases h⟩
theorem test_witness_UnlistedSampleIsFree : (st 0 0 false 0 0 0x20 []).supply = [] := rfl
theorem test_witness_JncImJumpsIfNoCarry : (st 0 0 false 2 0 0xE1).cy = false ∧ (st 0 0 true 15 0 0xE1).cy = true := by decide
theorem test_witness_AddingComplementSubtracts :
    (1 ≤ 1 ∧ 1 ≤ 15) ∧ (1 ≤ 15 ∧ 15 ≤ 15) ∧
    tup (exec (.addAIm (BitVec.ofNat 4 (16 - 1))) (st 0 0 true 6 0 0)) = some ⟨15, 0, false, 7, 0, []⟩ ∧
    tup (exec (.addAIm (BitVec.ofNat 4 (16 - 1))) (st 1 0 false 6 0 0)) = some ⟨0, 0, true, 7, 0, []⟩ := by decide
theorem test_witness_NonJumpsAdvanceSequentially :
    (isJump (.movAIm 3) = false ∧ ∃ t, exec (.movAIm 3) (st 0 0 false 15 0 0) = .next t) ∧
    ((st 0 0 true 15 0 0).cy = true ∧ ∃ t, exec (.jncIm 7) (st 0 0 true 15 0 0) = .next t) := ⟨⟨rfl, _, rfl⟩, rfl, _, rfl⟩
theorem test_witness_EveryAddOverwritesCarry :
    (∃ t, exec (.addAIm 8) { st 7 0 false 0 0 0 with cy := true } = .next t) ∧
    (∃ t, exec (.addAIm 8) { st 8 0 false 0 0 0 with cy := false } = .next t) ∧
    (∃ t, exec (.addBIm 1) { st 0 15 false 0 0 0 with cy := true } = .next t) ∧
    (isAdd (.movAIm 0) = false ∧ ∃ t, exec (.movAIm 0) (st 1 0 true 0 0 0) = .next t) :=
  ⟨⟨_, rfl⟩, ⟨_, rfl⟩, ⟨_, rfl⟩, rfl, _, rfl⟩
theorem test_witness_JumpsChangeOnlyPc : isJump (.jncIm 1) = true ∧ isJump (.jmpIm 15) = true := by decide
theorem test_witness_InstructionsCompleteWithinTheirMatrixRow :
    (accessOf (.inB 3)).readsInput = true ∧ NextInputInRange (st 0 0 false 0 0 0 [15]) ∧ (accessOf (.outB 3)).readsInput = false :=
  ⟨rfl, by intro v h; cases h; decide, rfl⟩
theorem test_witness_ResultsDependOnlyOnMatrixReads :
    AgreeOnReads (accessOf (.addAIm 1)) (st 15 2 false 3 4 0) (st 15 9 true 3 7 0xFF) ∧
    (∃ t, exec (.addAIm 1) (st 15 2 false 3 4 0) = .next t) ∧
    AgreeOnReads (accessOf (.jncIm 1)) (st 15 2 false 3 4 0) (st 1 9 false 3 7 0xFF) ∧
    (∃ t, exec (.jncIm 1) (st 15 2 false 3 4 0) = .next t) := ⟨by decide, ⟨_, rfl⟩, by decide, ⟨_, rfl⟩⟩
theorem test_witness_StepReadsOnlyTheWordAtPc :
    State.fetch { st 0 0 false 0 0 0x33 with rom := romFrom 0 (0x33 :: List.replicate 15 0x80) } = (st 0 0 false 0 0 0x33).fetch ∧
    State.fetch { State.reset with rom := [(0, 0x33)] } = State.reset.fetch := by decide
theorem test_witness_runs :
    (∃ t, stepN 1 (st 0 0 false 15 0 0x33) = .next t) ∧ (∃ t, stepN 0 State.reset = .next t) ∧
    (∃ t, stepN 1 (st 0 0 false 0 0 0x20 [15]) = .next t) ∧ (∃ t, stepN 1 (st 0 0 false 0 0 0xB0) = .next t) :=
  ⟨⟨_, rfl⟩, ⟨_, rfl⟩, ⟨_, rfl⟩, ⟨_, rfl⟩⟩
theorem test_witness_LoadedImageIsTheRom :
    (List.replicate 16 (0xF0 : Byte)).length = 16 ∧ (List.replicate 15 (0xF0 : Byte)).length ≠ 16 ∧
    (List.replicate 17 (0xF0 : Byte)).length ≠ 16 := by decide
theorem test_witness_PlacedWordIsFetched : 255 < 256 ∧ 0 ≠ (st 0 0 false 15 0 0).pc.toNat ∧ 14 < 16 ∧ 14 ≠ (st 0 0 false 15 0 0).pc.toNat ∧
    (st 0 0 false 15 0 0).rom.read 0 = some 0xF0 ∧ State.reset.rom.read 14 = none ∧ State.reset.pc.toNat ≠ 14 := by decide
theorem test_witness_RomIsATotalFixedFunction : ProgramImage (st 0 0 false 0 0 0x33) ∧ 16 ≤ 16 ∧
    (∃ t, step (st 0 0 false 0 0 0x33) = .next t) ∧ ¬ ProgramImage State.reset := ⟨by decide, by decide, ⟨_, rfl⟩, by decide⟩
theorem test_witness_AddressDecodeIsOneHot : wordSelect 15 15 = true ∧ wordSelect 15 14 = false ∧ ProgramImage (st 0 0 false 15 0 0x33) := by decide
theorem test_witness_NothingOfARunSurvivesReset :
    (st 9 4 true 11 7 0xF0).rom = (st 1 2 false 11 3 0xF0).rom ∧ (st 9 4 true 11 7 0xF0).haltPolicy = (st 1 2 false 11 3 0xF0).haltPolicy ∧
    (st 9 4 true 11 7 0xF0).supply = (st 1 2 false 11 3 0xF0).supply ∧
    (st 9 4 true 11 7 0xF0).samples = (st 1 2 false 11 3 0xF0).samples := by decide
theorem test_witness_FirstFetchAfterReset :
    ProgramImage (st 0 0 false 0 0 0x80) ∧ ProgramImage (st 0 0 false 0 0 0xF0) ∧ ProgramImage (st 0 0 false 0 0 0xE0) ∧
    (st 0 0 false 0 0 0x80).rom.read 0 = some 0x80 ∧ opcodeOf 0x80 ∈ WellFormed.invalidOpcodes ∧
    (st 0 0 false 0 0 0xF0).rom.read 0 = some 0xF0 ∧ (st 0 0 false 0 0 0xE0).rom.read 0 = some 0xE0 ∧
    (st 0 0 false 0 0 0xE0).haltPolicy = .takenSelfJump := by decide
theorem test_witness_StepRunsTheDecodedInstruction :
    (st 0 0 true 2 0 0xE2).fetch = some 0xE2 ∧ decode 0xE2 = .ok (.jncIm 2) ∧ (st 0 0 true 2 0 0xE2).status ≠ some .halt ∧
    (st 0 0 false 2 0 0xE2).fetch = some 0xE2 ∧ (st 0 0 false 2 0 0xE2).status = some .halt :=
  ⟨by decide, rfl, by decide, by decide, by decide⟩
theorem test_witness_HaltTestOfEachPolicy :
    (st 0 0 false 15 0 0xFF).fetch = some 0xFF ∧ (st 0 0 false 15 0 0xFF).haltPolicy = .takenSelfJump ∧
    State.fetch { st 0 0 false 2 0 0xE2 with haltPolicy := .jmpSelfOnly } = some 0xE2 ∧
    State.fetch { st 0 0 false 2 0 0xF2 with haltPolicy := .noDetection } = some 0xF2 := by decide
theorem test_witness_HaltExactlyAtFixedPoints :
    (st 0 0 false 4 0 0xF4).haltPolicy = .takenSelfJump ∧ (st 0 0 false 4 0 0xF4).status = some .halt ∧
    (st 0 0 false 4 0 0xF5).status = some .run ∧ (st 0 0 false 4 0 0xF4).fetch = some 0xF4 ∧ decode 0xF4 = .ok (.jmpIm 4) :=
  ⟨rfl, by decide, by decide, by decide, rfl⟩
theorem test_witness_EndedRunsStayEnded :
    (st 0 0 false 0 0 0xF0).status = some .halt ∧ (st 0 0 false 0 0 0xD0).status = some .fault ∧
    ∃ t, step (st 0 0 false 0 0 0x33) = .next t ∧ t ≠ st 0 0 false 0 0 0x33 := ⟨by decide, by decide, _, rfl, by decide⟩
theorem test_witness_StatusReadsOnlyWordPcAndCarry :
    (st 0 0 false 4 0 0xE4).haltPolicy = (st 9 8 false 4 7 0xE4).haltPolicy ∧ (st 0 0 false 4 0 0xE4).fetch = (st 9 8 false 4 7 0xE4).fetch ∧
    (st 0 0 false 4 0 0xE4).pc = (st 9 8 false 4 7 0xE4).pc ∧ (st 0 0 false 4 0 0xE4).cy = (st 9 8 false 4 7 0xE4).cy := by decide
theorem test_witness_CarryLastsUntilTheNextAdd :
    (∀ (k : Nat) (g : State) (w : Byte), k < 1 → stepN k (st 0 0 true 0 0 0x33) = .next g → g.fetch = some w →
      opcodeOf w ≠ 0b0000#4 ∧ opcodeOf w ≠ 0b0101#4) ∧ (∃ t, stepN 1 (st 0 0 true 0 0 0x33) = .next t) := by
  refine ⟨fun k g w hk hg hw => ?_, _, rfl⟩
  obtain rfl : k = 0 := by omega
  cases hg
  obtain rfl : (0x33 : Byte) = w := Option.some.inj (by rw [← hw]; decide)
  decide
theorem test_witness_DecodeErrorExactlyAtInvalidWords :
    (st 0 0 false 7 0 0xA0).fetch = some 0xA0 ∧ opcodeOf 0xA0 ∈ WellFormed.invalidOpcodes ∧
    step (st 0 0 false 7 0 0xA0) = .fault (.decodeError 7 0xA0) := ⟨by decide, by decide, rfl⟩
theorem test_witness_OutOfRangeSampleFailsFast : (st 0 0 false 0 0 0x20 [16]).supply.head? = some 16 ∧ 15 < 16 := by decide
theorem test_witness_NoOtherErrorExists :
    step (st 0 0 false 7 0 0xCF) = .fault (.decodeError 7 0xCF) ∧
    step (st 0 0 false 7 0 0x20 [16]) = .fault (.outOfBoundsInput 7 16) := ⟨rfl, rfl⟩
theorem test_witness_KeptDutiesLeaveOnlyDecodeError :
    ProgramImage { st 0 0 false 0 0 0 [0, 15] with rom := romFrom 0 (List.replicate 16 0x20) } ∧
    SupplyInRange { st 0 0 false 0 0 0 [0, 15] with rom := romFrom 0 (List.replicate 16 0x20) } := by decide
theorem test_witness_PortsOfOneInstruction :
    (accessOf (.inA 0)).readsInput = true ∧ (∃ t, exec (.inA 0) (st 0 0 false 0 0 0 [15]) = .next t) ∧
    (accessOf (.outB 0)).writesOutp = true ∧ (∃ t, exec (.outB 0) (st 0 0 false 0 0 0) = .next t) ∧
    (accessOf (.jmpIm 0)).writesOutp = false ∧ (∃ t, exec (.jmpIm 0) (st 0 0 false 0 0 0) = .next t) :=
  ⟨rfl, ⟨_, rfl⟩, rfl, ⟨_, rfl⟩, rfl, _, rfl⟩
theorem test_witness_StrobesMarkPortAccesses :
    (inRe (st 0 0 false 0 0 0x60 [15]) = true ∧ ∃ t, step (st 0 0 false 0 0 0x60 [15]) = .next t) ∧
    (outWe (st 0 0 false 0 0 0xB0) = true ∧ ∃ t, step (st 0 0 false 0 0 0xB0) = .next t) ∧
    (inRe (st 0 0 false 0 0 0xF0) = false ∧ ∃ t, step (st 0 0 false 0 0 0xF0) = .next t) ∧
    (st 0 0 false 0 0 0xF0).status ≠ some .run ∧ (st 0 0 false 0 0 0x80).status = some .fault ∧ State.reset.status = none := ⟨⟨by decide, _, rfl⟩, ⟨by decide, _, rfl⟩, ⟨by decide, _, rfl⟩, by decide, by decide, by decide⟩
theorem test_witness_StepKeepsInvariant :
    Consistent (st 0 3 false 2 0 0x90) ∧ (∃ t, step (st 0 3 false 2 0 0x90) = .next t) ∧
    Consistent { st 0 3 false 2 7 0x33 with events := [7] } := ⟨by decide, ⟨_, rfl⟩, by decide⟩
theorem test_witness_ResetMeetsInvariant : Memory.wf (st 0 3 false 15 0 0x90).rom := by decide
theorem test_witness_AtMostOneDestination : (controlOf 0b1000 false).err = true := by decide
theorem test_witness_RunResultIsTheEndOfTheSteps :
    runFor 0 0 (st 0 0 false 0 0 0xF0) = .halted (st 0 0 false 0 0 0xF0) 0 ∧
    runFor 0 0 (st 0 0 false 0 0 0x80) = .aborted (.decodeError 0 0x80) (st 0 0 false 0 0 0x80) 0 := by decide
theorem test_witness_LargerCeilingKeepsTheResult :
    runFor 0 3 (st 0 0 false 15 0 0xFF) = .halted (st 0 0 false 15 0 0xFF) 3 ∧
    runFor 0 3 (st 0 0 false 15 0 0xA0) = .aborted (.decodeError 15 0xA0) (st 0 0 false 15 0 0xA0) 3 := by decide

end Sys2Proof.Tests
end

section
/-! PROOFS of the family 10_state.md. The matrix of R13 against `exec`, once: what an executed instruction changes (`exec_effect`) and
what its results depend on (`exec_agree`). The statements about steps and runs follow from these two and `step_next_cases`. -/

namespace Sys2Proof.Proofs

open Sys2Proof.Machine Sys2Proof.Laws

/-! ### Rows of the matrix -/

/-- What a row of the matrix marks as written, as the operations see it: at most one register, Cy, OUTP; and whether it reads the
Input Port. -/
structure RowIs (c : Access) (dest : Option Reg) (cy outp input : Bool) : Prop where
  a : c.writesA = (dest == some .a)
  b : c.writesB = (dest == some .b)
  cy : c.writesCy = cy
  outp : c.writesOutp = outp
  input : c.readsInput = input

/-- Everything that is the same, or is known, after an instruction with the row `c` has led from `s` to `t`. -/
structure Effect (c : Access) (s t : State) : Prop where
  a : c.writesA = false → t.a = s.a
  b : c.writesB = false → t.b = s.b
  cy : c.writesCy = false → t.cy = s.cy
  noOutput : c.writesOutp = false → NoOutput s t
  oneOutput : c.writesOutp = true → OneOutput t.outp s t
  noSample : c.readsInput = false → NoSample s t
  oneSample : c.readsInput = true → OneSample s t
  rom : t.rom = s.rom
  haltPolicy : t.haltPolicy = s.haltPolicy

/-- An effect stays within the row. -/
theorem Effect.onlyWrites {c : Access} {s t : State} (h : Effect c s t) : OnlyWrites c s t :=
  ⟨h.a, h.b, h.cy, h.noOutput, h.noSample, fun x => by rw [h.rom], h.haltPolicy⟩

/-- The rows that write Cy are those of the two ADD opcodes (10_state.md R14). -/
theorem writesCy_eq_false {i : Instr} (hA : i.opcode ≠ 0b0000#4) (hB : i.opcode ≠ 0b0101#4) : (accessOf i).writesCy = false := by
  cases i with
  | addAIm im => exact absurd rfl hA
  | addBIm im => exact absurd rfl hB
  | _ => rfl

/-- The control table of 30_encoding.md R47 samples the Input Port where the matrix says it is read. -/
theorem controlOf_inRe (i : Instr) (cy : Bool) : (controlOf i.opcode cy).inRe = (accessOf i).readsInput := by
  cases i <;> rfl

/-- The control table of 30_encoding.md R47 enables the Output Port where the matrix says it is written. -/
theorem controlOf_outpWe (i : Instr) (cy : Bool) : (controlOf i.opcode cy).outpWe = (accessOf i).writesOutp := by
  cases i <;> rfl

/-! ### The operations -/

/-- The state with one input sample taken and nothing else changed. -/
def afterSample (s : State) : State := { s with supply := s.supply.tail, samples := s.samples + 1 }

/-- An input that completes is a copy of some sample, from the state with that sample taken. -/
theorem inputTo_next {s t : State} {r : Reg} (h : s.inputTo r = .next t) : ∃ v, t = (afterSample s).copyTo r v := by
  obtain ⟨v, hv, -⟩ | ⟨x, hx, -⟩ := inputTo_cases s r
  · exact ⟨v, Host.Outcome.next.inj (h.symm.trans hv)⟩
  · rw [hx] at h; cases h

/-- An input completes where the next listed value is in range. -/
theorem inputTo_completes {s : State} (r : Reg) (h : NextInputInRange s) : ∃ t, s.inputTo r = .next t := by
  obtain ⟨v, hv, -⟩ | ⟨x, -, hx, hlt⟩ := inputTo_cases s r
  · exact ⟨_, hv⟩
  · exact absurd (h x hx) (Nat.not_le.2 hlt)

/-- The sample is a function of the supply and the sample counter (log entry 5): where one state takes a sample, every other with the
same two takes the same sample. -/
theorem inputTo_congr {s₁ s₂ t₁ : State} {r : Reg} (hs : s₁.supply = s₂.supply) (hn : s₁.samples = s₂.samples)
    (h : s₁.inputTo r = .next t₁) :
    ∃ v, t₁ = (afterSample s₁).copyTo r v ∧ s₂.inputTo r = .next ((afterSample s₂).copyTo r v) := by
  obtain ⟨v₁, h₁, listed₁, free₁⟩ | ⟨x, hx, -⟩ := inputTo_cases s₁ r
  · refine ⟨v₁, Host.Outcome.next.inj (h.symm.trans h₁), ?_⟩
    obtain ⟨v₂, h₂, listed₂, free₂⟩ | ⟨x, -, hx, hlt⟩ := inputTo_cases s₂ r
    · have hv : v₁ = v₂ := by
        rcases hl : s₂.supply with _ | ⟨x, rest⟩
        · rw [free₁ (hs.trans hl), free₂ hl, hn]
        · exact BitVec.eq_of_toNat_eq ((listed₁ x (by simp [hs, hl])).2.trans (listed₂ x (by simp [hl])).2.symm)
      rw [hv]
      exact h₂
    · exact absurd (listed₁ x (hs ▸ hx)).1 (Nat.not_le.2 hlt)
  · rw [hx] at h; cases h

/-! Each operation has the effect of every row of its shape, and its results agree where what it reads does. -/

section
variable {c : Access} {r : Reg} {input : Bool} {s s₁ s₂ : State}

theorem addTo_effect (im : Nibble) (hc : RowIs c (some r) true false false) : Effect c s (s.addTo r im) := by
  rw [addTo_eq]
  cases r <;> constructor <;> simp [NoOutput, NoSample, hc.a, hc.b, hc.cy, hc.outp, hc.input]

theorem copyTo_effect (v : Nibble) (hc : RowIs c (some r) false false false) : Effect c s (s.copyTo r v) := by
  rw [copyTo_eq]
  cases r <;> constructor <;> simp [NoOutput, NoSample, hc.a, hc.b, hc.outp, hc.input]

theorem sample_copyTo_effect (v : Nibble) (hc : RowIs c (some r) false false true) :
    Effect c s ((afterSample s).copyTo r v) := by
  rw [copyTo_eq]
  cases r <;> constructor <;> simp [afterSample, NoOutput, OneSample, hc.a, hc.b, hc.outp, hc.input]

theorem output_effect (v : Nibble) (hc : RowIs c none false true false) : Effect c s (s.output v) := by
  rw [output_eq]
  constructor <;> simp [OneOutput, NoSample, hc.outp, hc.input]

theorem jump_effect (x : Nibble) (hc : RowIs c none false false false) : Effect c s (s.jump x) := by
  constructor <;> simp [NoOutput, NoSample, hc.outp, hc.input]

theorem addTo_agree (im : Nibble) (hc : RowIs c (some r) true false false) (hpc : s₁.pc = s₂.pc)
    (hr : s₁.reg r = s₂.reg r) : AgreeOnWrites c (s₁.addTo r im) (s₂.addTo r im) := by
  rw [addTo_eq, addTo_eq, hpc, hr]
  cases r <;> simp [AgreeOnWrites, hc.a, hc.b, hc.outp]

theorem copyTo_agree (v : Nibble) (hc : RowIs c (some r) false false input) (hpc : s₁.pc = s₂.pc) :
    AgreeOnWrites c (s₁.copyTo r v) (s₂.copyTo r v) := by
  rw [copyTo_eq, copyTo_eq, hpc]
  cases r <;> simp [AgreeOnWrites, hc.a, hc.b, hc.cy, hc.outp]

theorem output_agree (v : Nibble) (hc : RowIs c none false true false) (hpc : s₁.pc = s₂.pc) :
    AgreeOnWrites c (s₁.output v) (s₂.output v) := by
  rw [output_eq, output_eq, hpc]
  simp [AgreeOnWrites, hc.a, hc.b, hc.cy]

theorem jump_agree (x : Nibble) (hc : RowIs c none false false false) : AgreeOnWrites c (s₁.jump x) (s₂.jump x) := by
  simp [AgreeOnWrites, hc.a, hc.b, hc.cy, hc.outp]

end

/-! ### One instruction -/

/-- JNC loads PC either way: with the immediate, or with the next address (43_jump.md R71). -/
theorem exec_jncIm (im : Nibble) (s : State) :
    exec (.jncIm im) s = .next (s.jump (if s.cy = false then im else nextPc s.pc)) := by
  cases h : s.cy
  · exact if_pos h
  · exact if_neg (by simp [h])

/-- The instructions that read the Input Port are inputs into a register. -/
theorem exec_readsInput {i : Instr} (h : (accessOf i).readsInput = true) : ∃ r, ∀ s, exec i s = s.inputTo r := by
  cases i with
  | inA u => exact ⟨.a, fun _ => rfl⟩
  | inB u => exact ⟨.b, fun _ => rfl⟩
  | _ => cases h

/-- Every instruction that completes has the effect of its row. -/
theorem exec_effect {i : Instr} {s t : State} (h : exec i s = .next t) : Effect (accessOf i) s t := by
  cases i with
  | addAIm im => cases h; exact addTo_effect im ⟨rfl, rfl, rfl, rfl, rfl⟩
  | addBIm im => cases h; exact addTo_effect im ⟨rfl, rfl, rfl, rfl, rfl⟩
  | movAB u => cases h; exact copyTo_effect _ ⟨rfl, rfl, rfl, rfl, rfl⟩
  | movAIm im => cases h; exact copyTo_effect _ ⟨rfl, rfl, rfl, rfl, rfl⟩
  | movBA u => cases h; exact copyTo_effect _ ⟨rfl, rfl, rfl, rfl, rfl⟩
  | movBIm im => cases h; exact copyTo_effect _ ⟨rfl, rfl, rfl, rfl, rfl⟩
  | inA u => obtain ⟨v, rfl⟩ := inputTo_next h; exact sample_copyTo_effect v ⟨rfl, rfl, rfl, rfl, rfl⟩
  | inB u => obtain ⟨v, rfl⟩ := inputTo_next h; exact sample_copyTo_effect v ⟨rfl, rfl, rfl, rfl, rfl⟩
  | outB u => cases h; exact output_effect _ ⟨rfl, rfl, rfl, rfl, rfl⟩
  | outIm im => cases h; exact output_effect _ ⟨rfl, rfl, rfl, rfl, rfl⟩
  | jncIm im => rw [exec_jncIm] at h; cases h; exact jump_effect _ ⟨rfl, rfl, rfl, rfl, rfl⟩
  | jmpIm im => cases h; exact jump_effect _ ⟨rfl, rfl, rfl, rfl, rfl⟩

/-- Every instruction completes where an IN's next sample is in range. -/
theorem exec_completes_inRange (i : Instr) (s : State) (h : (accessOf i).readsInput = true → NextInputInRange s) :
    ∃ t, exec i s = .next t := by
  cases hi : (accessOf i).readsInput
  · exact exec_completes i s hi
  · obtain ⟨r, hr⟩ := exec_readsInput hi
    rw [hr]
    exact inputTo_completes r (h hi)

/-- From two states that agree on what the row reads, the instruction completes alike and its results agree on what the row writes. -/
theorem exec_agree {i : Instr} {s₁ s₂ t₁ : State} (hr : AgreeOnReads (accessOf i) s₁ s₂) (h : exec i s₁ = .next t₁) :
    ∃ t₂, exec i s₂ = .next t₂ ∧ AgreeOnWrites (accessOf i) t₁ t₂ := by
  obtain ⟨hpc, ha, hb, hcy, hin⟩ := hr
  cases i with
  | addAIm im => cases h; exact ⟨_, rfl, addTo_agree im ⟨rfl, rfl, rfl, rfl, rfl⟩ hpc (ha rfl)⟩
  | addBIm im => cases h; exact ⟨_, rfl, addTo_agree im ⟨rfl, rfl, rfl, rfl, rfl⟩ hpc (hb rfl)⟩
  | movAB u =>
    cases h
    rw [reg_b, hb rfl]
    exact ⟨_, rfl, copyTo_agree s₂.b ⟨rfl, rfl, rfl, rfl, rfl⟩ hpc⟩
  | movAIm im => cases h; exact ⟨_, rfl, copyTo_agree im ⟨rfl, rfl, rfl, rfl, rfl⟩ hpc⟩
  | movBA u =>
    cases h
    rw [reg_a, ha rfl]
    exact ⟨_, rfl, copyTo_agree s₂.a ⟨rfl, rfl, rfl, rfl, rfl⟩ hpc⟩
  | movBIm im => cases h; exact ⟨_, rfl, copyTo_agree im ⟨rfl, rfl, rfl, rfl, rfl⟩ hpc⟩
  | inA u =>
    obtain ⟨v, rfl, h₂⟩ := inputTo_congr (hin rfl).1 (hin rfl).2 h
    exact ⟨_, h₂, copyTo_agree v ⟨rfl, rfl, rfl, rfl, rfl⟩ hpc⟩
  | inB u =>
    obtain ⟨v, rfl, h₂⟩ := inputTo_congr (hin rfl).1 (hin rfl).2 h
    exact ⟨_, h₂, copyTo_agree v ⟨rfl, rfl, rfl, rfl, rfl⟩ hpc⟩
  | outB u =>
    cases h
    rw [reg_b, hb rfl]
    exact ⟨_, rfl, output_agree s₂.b ⟨rfl, rfl, rfl, rfl, rfl⟩ hpc⟩
  | outIm im => cases h; exact ⟨_, rfl, output_agree im ⟨rfl, rfl, rfl, rfl, rfl⟩ hpc⟩
  | jncIm im =>
    rw [exec_jncIm] at h
    cases h
    rw [hcy rfl, hpc]
    exact ⟨_, exec_jncIm im s₂, jump_agree _ ⟨rfl, rfl, rfl, rfl, rfl⟩⟩
  | jmpIm im => cases h; exact ⟨_, rfl, jump_agree im ⟨rfl, rfl, rfl, rfl, rfl⟩⟩

/-! ### One step -/

/-- A step that answers a next state has halted with the state as it is, or has run the decoded instruction. -/
theorem step_next_cases {s t : State} (h : step s = .next t) :
    (s.status = some .halt ∧ t = s) ∨
    (∃ w i, s.fetch = some w ∧ i.opcode = opcodeOf w ∧ s.status = some .run ∧ exec i s = .next t) := by
  obtain ⟨-, -, hs⟩ | ⟨w, -, -, -, hs⟩ | ⟨w, i, -, -, -, -, -, hst, hs⟩ | ⟨w, i, hf, -, ho, -, -, hst, hs⟩ := step_cases s
  · rw [hs] at h; cases h
  · rw [hs] at h; cases h
  · exact .inl ⟨hst, (Host.Outcome.next.inj (hs.symm.trans h)).symm⟩
  · exact .inr ⟨w, i, hf, ho, hst, hs.symm.trans h⟩

/-- No strobe is up unless the status is RUN. -/
theorem strobe_of_not_run (f : Signals → Bool) {s : State} (h : s.status ≠ some .run) : strobe f s = false := by
  simp [strobe, h]

/-- With status RUN a strobe is its control signal for the fetched word. -/
theorem strobe_of_run (f : Signals → Bool) {s : State} {w : Byte} (hf : s.fetch = some w) (hs : s.status = some .run) :
    strobe f s = f (controlOf (opcodeOf w) s.cy) := by
  simp [strobe, hf, hs]

/-- An effect keeps OUTP equal to the last event: an output puts the new value last, and nothing else touches either. -/
theorem Effect.outputConsistent {c : Access} {s t : State} (h : Effect c s t) (hs : OutputConsistent s) : OutputConsistent t := by
  cases hw : c.writesOutp
  · obtain ⟨ho, he⟩ := h.noOutput hw
    rw [OutputConsistent, ho, he]
    exact hs
  · obtain ⟨-, he⟩ := h.oneOutput hw
    simp [OutputConsistent, he]

/-- A step that fetches no ADD keeps Cy. -/
theorem step_cy {s t : State} (h : step s = .next t)
    (hadd : ∀ w, s.fetch = some w → opcodeOf w ≠ 0b0000#4 ∧ opcodeOf w ≠ 0b0101#4) : t.cy = s.cy := by
  obtain ⟨-, rfl⟩ | ⟨w, i, hf, ho, -, he⟩ := step_next_cases h
  · rfl
  · obtain ⟨hA, hB⟩ := hadd w hf
    exact (exec_effect he).cy (writesCy_eq_false (ho ▸ hA) (ho ▸ hB))

/-! ### The statements -/

/-- Settles O49: a halting step changes nothing, and an executed instruction keeps the ROM and moves OUTP and the history together. -/
theorem stepKeepsInvariant : Obligations.StepKeepsInvariant := by
  intro s t ⟨hrom, hout⟩ h
  obtain ⟨-, rfl⟩ | ⟨w, i, -, -, -, he⟩ := step_next_cases h
  · exact ⟨hrom, hout⟩
  · have hi := exec_effect he
    exact ⟨hi.rom ▸ hrom, hi.outputConsistent hout⟩

/-- Settles O24, from the completion of every instruction and the effect of its row. -/
theorem instructionsCompleteWithinTheirMatrixRow : Obligations.InstructionsCompleteWithinTheirMatrixRow := by
  intro i s h
  obtain ⟨t, ht⟩ := exec_completes_inRange i s h
  exact ⟨t, ht, (exec_effect ht).onlyWrites⟩

/-- Settles O25, instruction by instruction in `exec_agree`. -/
theorem resultsDependOnlyOnMatrixReads : Obligations.ResultsDependOnlyOnMatrixReads :=
  fun _ _ _ _ hr h => exec_agree hr h

/-- Settles O41, by induction on the number of steps. -/
theorem carryLastsUntilTheNextAdd : Obligations.CarryLastsUntilTheNextAdd := by
  intro n
  induction n with
  | zero => intro s t _ h; cases h; rfl
  | succ n ih =>
    intro s t hadd h
    obtain ⟨u, hu, ht⟩ := stepN_succ_cases n s t h
    have tail : t.cy = u.cy := ih u t (fun k g w hk hg => hadd (k + 1) g w (by omega) ((stepN_succ k s u hu).trans hg)) ht
    exact tail.trans (step_cy hu fun w => hadd 0 s w (by omega) rfl)

/-- Settles O48: at RUN the strobes are the matrix's marks for the two ports, and otherwise they are 0 and the state stays. -/
theorem strobesMarkPortAccesses : Obligations.StrobesMarkPortAccesses := by
  refine ⟨fun s t h => ?_, fun s hs => ⟨strobe_of_not_run _ hs, strobe_of_not_run _ hs⟩⟩
  obtain ⟨hs, rfl⟩ | ⟨w, i, hf, ho, hs, he⟩ := step_next_cases h
  · have low (f : Signals → Bool) : strobe f t = false := strobe_of_not_run f (by simp [hs])
    simp [inRe, outWe, low, NoSample, NoOutput]
  · have hin : inRe s = (accessOf i).readsInput := by rw [inRe, strobe_of_run _ hf hs, ← ho, controlOf_inRe]
    have hout : outWe s = (accessOf i).writesOutp := by rw [outWe, strobe_of_run _ hf hs, ← ho, controlOf_outpWe]
    have hi := exec_effect he
    rw [hin, hout]
    exact ⟨hi.oneSample, hi.noSample, hi.oneOutput, hi.noOutput⟩

/-- Settles O50: OUTP is 0 and the history empty after either reset, and a reset event keeps the ROM. -/
theorem resetMeetsInvariant : Obligations.ResetMeetsInvariant :=
  ⟨⟨wf_reset, rfl⟩, fun _ hrom => ⟨hrom, rfl⟩⟩

end Sys2Proof.Proofs
end

section
/-! PROOFS of the family 20_memory.md. The ROM is neither read nor written by an instruction (`exec_rom_swap`, `step_rom`), a step
depends on it through the fetched word alone (`step_of_fetch`), and the induction over runs is made once (`stepN_induction`). -/

namespace Sys2Proof.Proofs

open Sys2Proof.Machine Sys2Proof.Laws

/-! ### Exchanging the ROM -/

/-- An input takes the same sample, or ends the run alike, whatever the ROM is. -/
theorem inputTo_rom_swap (s : State) (m : Memory) (r : Reg) :
    State.inputTo { s with rom := m } r = withRom m (s.inputTo r) := by
  rcases hs : s.supply with _ | ⟨v, rest⟩
  · cases r <;> simp [State.inputTo, State.portIn, hs, withRom, copyTo_eq, State.setReg]
  · by_cases hv : v ≤ 15
    · cases r <;> simp [State.inputTo, State.portIn, hs, hv, withRom, copyTo_eq, State.setReg]
    · simp [State.inputTo, State.portIn, hs, hv, withRom, State.raiseOutOfBoundsInput, raise]

/-- No instruction reads or writes the ROM (20_memory.md R26). -/
theorem exec_rom_swap (i : Instr) (s : State) (m : Memory) : exec i { s with rom := m } = withRom m (exec i s) := by
  cases i with
  | inA u => exact inputTo_rom_swap s m .a
  | inB u => exact inputTo_rom_swap s m .b
  | jncIm im => rw [exec_jncIm, exec_jncIm]; rfl
  | _ => rfl

/-- The loop over a ROM given as its parameter does not look at the one in the state. -/
theorem stepOn_rom_swap (rom : Nibble → Byte) (s : State) (m : Memory) :
    stepOn rom { s with rom := m } = withRom m (stepOn rom s) := by
  simp only [stepOn]
  rcases decode (rom s.pc) with e | i
  · rfl
  · cases selfJump s.haltPolicy (opcodeOf (rom s.pc)) (operandOf (rom s.pc)) s.pc s.cy
    · exact exec_rom_swap i s m
    · rfl

/-! ### One step and its fetch -/

/-- With a program image a step is the loop over the image's total function. -/
theorem step_of_image {s : State} (h : ProgramImage s) : step s = stepOn s.romWord s := if_pos h

/-- Without a fetched word the step is refused. -/
theorem step_of_fetch_none {s : State} (h : s.fetch = none) : step s = .refused .noProgramImage := by
  obtain ⟨hi, -⟩ | ⟨-, hf⟩ := fetch_cases s
  · exact if_neg (by simp [hi])
  · rw [h] at hf; cases hf

/-- With a fetched word the step is the loop over any ROM that holds this word at PC. -/
theorem step_of_fetch {s : State} {w : Byte} (h : s.fetch = some w) : step s = stepOn (fun _ => w) s := by
  obtain ⟨-, hf⟩ | ⟨hi, hf⟩ := fetch_cases s
  · rw [h] at hf; cases hf
  · have hw : s.romWord s.pc = w := Option.some.inj (hf.symm.trans h)
    rw [step_of_image hi, stepOn, stepOn, hw]

/-- No step writes the ROM (20_memory.md R26). -/
theorem step_rom {s t : State} (h : step s = .next t) : t.rom = s.rom := by
  obtain ⟨-, rfl⟩ | ⟨w, i, -, -, -, he⟩ := step_next_cases h
  · rfl
  · exact (exec_effect he).rom

/-- The total function of the ROM is a function of the ROM's words alone. -/
theorem romWord_congr {s t : State} (h : t.rom = s.rom) : t.romWord = s.romWord := by
  funext x
  rw [State.romWord, State.romWord, h]

/-- A state with the ROM of one that holds a program image holds it too. -/
theorem programImage_congr {s t : State} (h : t.rom = s.rom) (hs : ProgramImage s) : ProgramImage t := by
  rw [ProgramImage, h]
  exact hs

/-- In a program image the fetch is a ROM read at PC (20_memory.md R27). -/
theorem fetch_eq_read {s : State} (h : ProgramImage s) : s.fetch = s.rom.read s.pc.toNat := by
  rw [fetch_image s h, read_eq_romWord s h]

/-- No instruction is refused. -/
theorem exec_ne_refused (i : Instr) (s : State) (r : Refusal) : exec i s ≠ .refused r := by
  intro h
  cases hi : (accessOf i).readsInput
  · obtain ⟨t, ht⟩ := exec_completes i s hi
    rw [ht] at h; cases h
  · obtain ⟨q, hq⟩ := exec_readsInput hi
    rw [hq] at h
    obtain ⟨v, hv, -⟩ | ⟨x, hx, -⟩ := inputTo_cases s q
    · rw [hv] at h; cases h
    · rw [hx] at h; cases h

/-- With a program image no step is refused. -/
theorem step_ne_refused {s : State} (h : ProgramImage s) (r : Refusal) : step s ≠ .refused r := by
  obtain ⟨-, hi, -⟩ | ⟨w, -, -, -, hs⟩ | ⟨w, i, -, -, -, -, -, -, hs⟩ | ⟨w, i, -, -, -, -, -, -, hs⟩ := step_cases s
  · rw [h] at hi; cases hi
  · rw [hs]; nofun
  · rw [hs]; nofun
  · rw [hs]; exact exec_ne_refused i s r

/-! ### Runs -/

/-- The induction over a run: a relation that holds after no step and is kept by putting one step before holds after `n` steps. -/
theorem stepN_induction {R : Nat → State → State → Prop} (zero : ∀ s, R 0 s s)
    (succ : ∀ n s u t, step s = .next u → R n u t → R (n + 1) s t) {n : Nat} {s t : State} (h : stepN n s = .next t) :
    R n s t := by
  induction n generalizing s with
  | zero => cases h; exact zero t
  | succ n ih =>
    obtain ⟨u, hu, ht⟩ := stepN_succ_cases n s t h
    exact succ n s u t hu (ih ht)

/-- No run writes the ROM. -/
theorem stepN_rom {n : Nat} {s t : State} (h : stepN n s = .next t) : t.rom = s.rom :=
  stepN_induction (R := fun _ s t => t.rom = s.rom) (fun _ => rfl) (fun _ _ _ _ hu ht => ht.trans (step_rom hu)) h

/-- From `s` to `t` the history has grown at its end by at most `n` events, and at most `n` samples were taken, each from the front of
the supply while values are listed. -/
structure PortsExtend (n : Nat) (s t : State) : Prop where
  events : ∃ new, t.events = s.events ++ new ∧ new.length ≤ n
  inputs : ∃ k, k ≤ n ∧ t.samples = s.samples + k ∧ t.supply = s.supply.drop k

theorem PortsExtend.refl (n : Nat) (s : State) : PortsExtend n s s :=
  ⟨⟨[], by simp⟩, ⟨0, by simp⟩⟩

theorem PortsExtend.trans {m n : Nat} {s u t : State} (h₁ : PortsExtend m s u) (h₂ : PortsExtend n u t) :
    PortsExtend (m + n) s t := by
  obtain ⟨⟨e₁, he₁, hl₁⟩, k₁, hk₁, hn₁, hs₁⟩ := h₁
  obtain ⟨⟨e₂, he₂, hl₂⟩, k₂, hk₂, hn₂, hs₂⟩ := h₂
  refine ⟨⟨e₁ ++ e₂, by rw [he₂, he₁, List.append_assoc], ?_⟩, k₁ + k₂, by omega, by omega, by rw [hs₂, hs₁, List.drop_drop]⟩
  rw [List.length_append]
  omega

/-- An executed instruction emits at most one event and takes at most one sample. -/
theorem Effect.portsExtend {c : Access} {s t : State} (h : Effect c s t) : PortsExtend 1 s t where
  events := by
    cases hw : c.writesOutp
    · exact ⟨[], by simp [(h.noOutput hw).2]⟩
    · exact ⟨[t.outp], (h.oneOutput hw).2, le_rfl⟩
  inputs := by
    cases hr : c.readsInput
    · obtain ⟨hs, hn⟩ := h.noSample hr
      exact ⟨0, Nat.zero_le 1, hn, hs⟩
    · obtain ⟨hs, hn⟩ := h.oneSample hr
      exact ⟨1, le_rfl, hn, by rw [hs, List.drop_one]⟩

theorem step_portsExtend {s t : State} (h : step s = .next t) : PortsExtend 1 s t := by
  obtain ⟨-, rfl⟩ | ⟨w, i, -, -, -, he⟩ := step_next_cases h
  · exact .refl 1 t
  · exact (exec_effect he).portsExtend

/-- A run emits at most one event and takes at most one sample a step. -/
theorem stepN_portsExtend {n : Nat} {s t : State} (h : stepN n s = .next t) : PortsExtend n s t :=
  stepN_induction (R := PortsExtend) (.refl 0)
    (fun n _ _ _ hu ht => Nat.add_comm 1 n ▸ (step_portsExtend hu).trans ht) h

/-! ### Loading -/

/-- A list of 16 bytes is laid out from address 0 on. -/
theorem loadImage_of_length {bytes : List Byte} (s : State) (h : bytes.length = 16) :
    loadImage bytes s = .next { s with rom := romFrom 0 bytes } :=
  if_pos (by simp [WellFormed.image, h])

/-- A list of any other length is refused. -/
theorem loadImage_of_length_ne {bytes : List Byte} (s : State) (h : bytes.length ≠ 16) :
    loadImage bytes s = .refused (.notAProgramImage bytes.length) :=
  if_neg (by simp [WellFormed.image, h])

/-- An 8-bit instruction's table bits are its word. -/
theorem tableWord_eight (w : Nat) : tableWord 8 w = BitVec.ofNat 8 w :=
  BitVec.eq_of_toNat_eq (by simp [tableWord])

/-- The fill of each of the 16 addresses is the word of JMP to it (70_reset_and_hazards.md R103). -/
theorem fillWord_eq {x : Nat} (h : x < 16) : fillWord x = BitVec.ofNat 8 (0xF0 + x) :=
  (show ∀ x < 16, fillWord x = BitVec.ofNat 8 (0xF0 + x) by decide) x h

theorem programImage_withFetchWord (s : State) (nbits w : Nat) : ProgramImage (s.withFetchWord nbits w) :=
  isImage_write s.rom.filled s.pc (tableWord nbits w) (isImage_filled s.rom)

/-- The placed word is the one at PC. -/
theorem fetch_withFetchWord (s : State) (nbits w : Nat) : (s.withFetchWord nbits w).fetch = some (tableWord nbits w) := by
  rw [fetch_eq_read (programImage_withFetchWord s nbits w)]
  exact read_write_same s.rom.filled s.pc.toNat (tableWord nbits w)

/-- At every other address the placing leaves the loaded word, or the fill where there was none. -/
theorem read_withFetchWord_other (s : State) (nbits w : Nat) {x : Nat} (hx : x < 16) (hpc : x ≠ s.pc.toNat) :
    (s.withFetchWord nbits w).rom.read x = some ((s.rom.read x).getD (fillWord x)) :=
  (read_write_other s.rom.filled s.pc.toNat x (tableWord nbits w) hpc).trans (read_filled s.rom x hx)

/-! ### The statements -/

/-- Settles O26, instruction by instruction in `exec_rom_swap`. -/
theorem memoryIsNeverData : Obligations.MemoryIsNeverData := exec_rom_swap

/-- Settles O27: the step is a function of the fetched word, over a loop that does not look at the state's ROM. -/
theorem stepReadsOnlyTheWordAtPc : Obligations.StepReadsOnlyTheWordAtPc := by
  intro s m h
  rcases hf : s.fetch with _ | w
  · rw [step_of_fetch_none hf, step_of_fetch_none (h.trans hf)]
    rfl
  · rw [step_of_fetch hf, step_of_fetch (h.trans hf), stepOn_rom_swap]

/-- Settles O55: the addresses of a program image are 0 to 15, and no step writes the ROM. -/
theorem romIsATotalFixedFunction : Obligations.RomIsATotalFixedFunction := by
  intro s h
  refine ⟨?_, read_eq_romWord s h, fun x hx => read_eq_none s.rom x fun c hc => ?_, step_of_image h, fun t ht => ?_⟩
  · simpa using congrArg List.length (map_isImage s.rom h)
  · have : c.1 < 16 := (wf_isImage s.rom h).2 c hc
    omega
  · have hrom := step_rom ht
    exact ⟨programImage_congr hrom h, romWord_congr hrom⟩

/-- Settles O56, from the two halves `step_ne_refused` and the refusal without an image. -/
theorem refusedExactlyWithoutProgramImage : Obligations.RefusedExactlyWithoutProgramImage := by
  intro s r
  by_cases h : ProgramImage s
  · exact ⟨fun hs => absurd hs (step_ne_refused h r), fun hs => absurd h hs.1⟩
  · have hs : step s = .refused .noProgramImage := if_neg h
    rw [hs]
    exact ⟨fun hr => ⟨h, (Host.Outcome.refused.inj hr).symm⟩, fun hr => hr.2 ▸ rfl⟩

/-- Settles O28, from `stepN_rom`. -/
theorem fetchAlwaysSeesTheLoadedImage : Obligations.FetchAlwaysSeesTheLoadedImage := by
  intro n s t h
  have hrom := stepN_rom h
  refine ⟨fun x => by rw [hrom], romWord_congr hrom, fun hs => ?_⟩
  rw [fetch_eq_read (programImage_congr hrom hs), hrom]

/-- Settles O29, from `stepN_portsExtend`. -/
theorem portsFollowProgramOrder : Obligations.PortsFollowProgramOrder := by
  intro n s t h
  obtain ⟨hevents, hinputs⟩ := stepN_portsExtend h
  exact ⟨hevents, hinputs⟩

/-- Settles O30, from the laws of `romFrom`. -/
theorem loadedImageIsTheRom : Obligations.LoadedImageIsTheRom := by
  refine ⟨fun bytes s h => ⟨_, loadImage_of_length s h, fun i => ?_, isImage_romFrom bytes h, ?_, rfl⟩,
    fun bytes s h => loadImage_of_length_ne s h⟩
  · simpa using read_romFrom bytes 0 i
  · exact wf_romFrom bytes 0 (by simp [h])

/-- Settles O31: the placed word at PC, and at every other address the word of the completed ROM. -/
theorem placedWordIsFetched : Obligations.PlacedWordIsFetched := by
  intro s w _
  refine ⟨?_, programImage_withFetchWord s 8 w, fun x b hx hpc hb => ?_, fun x hx hpc hb => ?_, withFetchWord_eq s 8 w⟩
  · rw [fetch_withFetchWord, tableWord_eight]
  · rw [read_withFetchWord_other s 8 w hx hpc, hb, Option.getD_some]
  · rw [read_withFetchWord_other s 8 w hx hpc, hb, Option.getD_none, fillWord_eq hx]

/-- Settles O32: the selected address is PC. -/
theorem addressDecodeIsOneHot : Obligations.AddressDecodeIsOneHot := by
  intro s
  refine ⟨⟨s.pc.toNat, s.pc.isLt⟩, beq_self_eq_true _, fun j hj => ?_, rfl, fun h => (fetch_eq_read h).symm⟩
  exact Fin.ext (eq_of_beq hj).symm

end Sys2Proof.Proofs
end

section
/-! PROOFS of the family 30_encoding.md. A word is its two nibbles, so decode and encode are inverse (`decode_encode`,
`encode_of_decode`) and an instruction is its opcode and its operand (`instr_ext`); and the rows of the control table latch what `exec`
does (`exec_eq_latch`, `exec_eq_latch_sample`). -/

namespace Sys2Proof.Proofs

open Sys2Proof.Machine Sys2Proof.Laws

/-! ### Words and their nibbles -/

/-- The high nibble of a word put together from two (30_encoding.md R39). -/
@[simp] theorem opcodeOf_append (op im : Nibble) : opcodeOf (op ++ im) = op := by
  revert op im; decide

/-- The low nibble of a word put together from two (30_encoding.md R39). -/
@[simp] theorem operandOf_append (op im : Nibble) : operandOf (op ++ im) = im := by
  revert op im; decide

/-- A word is its high nibble and then its low one. -/
theorem opcodeOf_append_operandOf (w : Byte) : opcodeOf w ++ operandOf w = w := by
  have join : opcodeOf w ++ operandOf w = w.extractLsb' 0 8 :=
    BitVec.extractLsb'_append_extractLsb'_eq_extractLsb' (start₁ := 0) (start₂ := 4) rfl
  rw [join, BitVec.extractLsb'_eq_self]

/-! ### Decoding and encoding -/

/-- Every instruction survives the way through its word: the map of 30_encoding.md R41 has its opcode's row. -/
theorem decode_encode (i : Instr) : decode (encode i) = .ok i := by
  cases i <;> simp [decode, encode, Instr.opcode, Instr.operand]

/-- An instruction is its opcode and its operand field (30_encoding.md R45). -/
theorem instr_ext {i j : Instr} (hop : i.opcode = j.opcode) (him : i.operand = j.operand) : i = j := by
  have hw : encode i = encode j := by rw [encode, encode, hop, him]
  exact Except.ok.inj ((decode_encode i).symm.trans (hw ▸ decode_encode j))

/-- What an instruction does is a function of its opcode and its operand field. -/
theorem exec_congr_fields {i j : Instr} (s : State) (hop : i.opcode = j.opcode) (him : i.operand = j.operand) :
    exec i s = exec j s := by
  rw [instr_ext hop him]

/-- A decoded instruction has the word's opcode and the word's low nibble. -/
theorem fields_of_decode {w : Byte} {i : Instr} (h : decode w = .ok i) : i.opcode = opcodeOf w ∧ i.operand = operandOf w := by
  obtain ⟨j, hj, hop, him, -⟩ | ⟨he, -⟩ := decode_cases w
  · obtain rfl : j = i := Except.ok.inj (hj.symm.trans h)
    exact ⟨hop, him⟩
  · rw [he] at h; cases h

/-- Every word that decodes survives the way through its instruction. -/
theorem encode_of_decode {w : Byte} {i : Instr} (h : decode w = .ok i) : encode i = w := by
  obtain ⟨hop, him⟩ := fields_of_decode h
  rw [encode, hop, him, opcodeOf_append_operandOf]

/-- Which words decode: those whose opcode passes the check (30_encoding.md R42, R43). -/
theorem decode_ok_iff (w : Byte) : (∃ i, decode w = .ok i) ↔ WellFormed.opcode (opcodeOf w) = true := by
  obtain ⟨i, hi, -, -, hw⟩ | ⟨he, hw⟩ := decode_cases w
  · simp [hi, hw]
  · simp [he, hw]

/-- Which words are rejected: the others. -/
theorem decode_error_iff (w : Byte) : (∃ e, decode w = .error e) ↔ WellFormed.opcode (opcodeOf w) = false := by
  obtain ⟨i, hi, -, -, hw⟩ | ⟨he, hw⟩ := decode_cases w
  · simp [hi, hw]
  · simp [he, hw]

/-- The decoder's answer as a test of the opcode. -/
theorem decode_isOk (w : Byte) : (decode w).isOk = WellFormed.opcode (opcodeOf w) := by
  obtain ⟨i, hi, -, -, hw⟩ | ⟨he, hw⟩ := decode_cases w
  · rw [hi, hw]; rfl
  · rw [he, hw]; rfl

/-- The opcode of the word with the number `n`. -/
theorem opcodeOf_ofNat (n : Nat) : opcodeOf (BitVec.ofNat 8 n) = BitVec.ofNat 4 (n / 16) := by
  apply BitVec.eq_of_toNat_eq
  simp [opcodeOf, BitVec.extractLsb'_toNat, Nat.shiftRight_eq_div_pow]
  omega

/-- A test of `n / b` passes for `b` numbers below `b * k` wherever it passes for one below `k`. -/
theorem countP_range_div (q : Nat → Bool) (b k : Nat) :
    (List.range (b * k)).countP (fun n => q (n / b)) = b * (List.range k).countP q := by
  induction k with
  | zero => rfl
  | succ k ih =>
    have block : (List.range b).countP ((fun n => q (n / b)) ∘ (b * k + ·)) = (List.range b).countP (fun _ => q k) :=
      List.countP_congr fun r hr => by
        have hr : r < b := List.mem_range.1 hr
        simp [Nat.mul_add_div (Nat.zero_lt_of_lt hr), Nat.div_eq_of_lt hr]
    rw [Nat.mul_succ, List.range_add, List.countP_append, ih, List.countP_map, block, List.range_succ, List.countP_append]
    cases hq : q k <;> simp [hq, Nat.mul_succ]

/-- Sixteen words for each of the four invalid opcodes are rejected (30_encoding.md R43). -/
theorem countP_rejected : (List.range 256).countP (fun n => !(decode (BitVec.ofNat 8 n)).isOk) = 64 := by
  simp only [decode_isOk, opcodeOf_ofNat]
  calc (List.range (16 * 16)).countP (fun n => !WellFormed.opcode (BitVec.ofNat 4 (n / 16)))
      = 16 * (List.range 16).countP (fun m => !WellFormed.opcode (BitVec.ofNat 4 m)) :=
        countP_range_div (fun m => !WellFormed.opcode (BitVec.ofNat 4 m)) 16 16
    _ = 16 * 4 := by decide

/-- The four invalid opcodes by name (30_encoding.md R43). -/
theorem opcode_invalid_iff (op : Nibble) :
    WellFormed.opcode op = false ↔ op = 0b1000#4 ∨ op = 0b1010#4 ∨ op = 0b1100#4 ∨ op = 0b1101#4 := by
  simp [opcode_check_iff, WellFormed.invalidOpcodes]

/-- A step that fetches a word with an invalid opcode ends in `DecodeError`. -/
theorem step_of_invalid {s : State} {w : Byte} (hf : s.fetch = some w) (hw : WellFormed.opcode (opcodeOf w) = false) :
    step s = .fault (.decodeError s.pc w) := by
  obtain ⟨e, he⟩ := (decode_error_iff w).2 hw
  rw [step_of_fetch hf, stepOn, he]
  rfl

/-! ### What the opcode bits name -/

/-- Bits 3:2 of the opcode name the destination (30_encoding.md R46). -/
theorem destination_bits (i : Instr) :
    ((accessOf i).writesA = true ↔ i.opcode.extractLsb' 2 2 = 0b00#2) ∧
    ((accessOf i).writesB = true ↔ i.opcode.extractLsb' 2 2 = 0b01#2) ∧
    ((accessOf i).writesOutp = true ↔ i.opcode.extractLsb' 2 2 = 0b10#2) ∧
    (isJump i = true ↔ i.opcode.extractLsb' 2 2 = 0b11#2) := by
  cases i <;> simp [accessOf, isJump, Instr.opcode]

/-- Bits 1:0 of the opcode name the source, but for JNC's (30_encoding.md R46). -/
theorem source_bits (i : Instr) :
    ((accessOf i).readsA = true ↔ i.opcode.extractLsb' 0 2 = 0b00#2) ∧
    ((accessOf i).readsB = true ↔ i.opcode.extractLsb' 0 2 = 0b01#2) ∧
    ((accessOf i).readsInput = true ↔ i.opcode.extractLsb' 0 2 = 0b10#2 ∧ isJump i = false) := by
  cases i <;> simp [accessOf, isJump, Instr.opcode]

/-- The two ADD opcodes (40_add.md R54, R55). -/
theorem isAdd_iff (i : Instr) : isAdd i = true ↔ i.opcode = 0b0000#4 ∨ i.opcode = 0b0101#4 := by
  cases i <;> simp [isAdd, Instr.opcode]

/-! ### The control table -/

/-- `err` is up at the opcodes the check refuses (30_encoding.md R47). -/
theorem controlOf_err (op : Nibble) (cy : Bool) : (controlOf op cy).err = !WellFormed.opcode op := by
  revert op cy; decide

/-- `err` is 0 at a word that decodes. -/
theorem controlOf_err_of_decode {w : Byte} {i : Instr} (h : decode w = .ok i) (cy : Bool) :
    (controlOf (opcodeOf w) cy).err = false := by
  rw [controlOf_err, (decode_ok_iff w).1 ⟨i, h⟩]; rfl

/-- At most one destination is enabled (30_encoding.md R47). -/
theorem controlOf_destinations (op : Nibble) (cy : Bool) :
    [(controlOf op cy).aWe, (controlOf op cy).bWe, (controlOf op cy).outpWe, (controlOf op cy).pcLd].count true ≤ 1 := by
  revert op cy; decide

/-- Where `err` is up it is the only signal (30_encoding.md R47). -/
theorem controlOf_of_err (op : Nibble) (cy : Bool) : (controlOf op cy).err = true → controlOf op cy = { err := true } := by
  revert op cy; decide

/-! ### The datapath -/

/-- An instruction that reads no input port is the latching of its row's signals. -/
theorem exec_eq_latch {i : Instr} (s : State) (h : (accessOf i).readsInput = false) :
    exec i s = .next ((controlOf i.opcode s.cy).latch s s i.operand 0) := by
  cases i with
  | inA u => cases h
  | inB u => cases h
  | jncIm im => rw [exec_jncIm]; cases hc : s.cy <;> simp [Signals.latch, controlOf, Instr.opcode, Instr.operand, State.jump, hc]
  | _ => rfl

/-- A taken sample is copied into the register. -/
theorem inputTo_of_portIn {s t : State} {v : Nibble} (r : Reg) (hp : s.portIn = .ok (v, t)) :
    s.inputTo r = .next (t.copyTo r v) := by
  rw [State.inputTo, hp]

/-- An IN whose sample is taken is the latching of its row's signals, with that sample on the port. -/
theorem exec_eq_latch_sample {i : Instr} {s t : State} {v : Nibble} (h : (accessOf i).readsInput = true)
    (hp : s.portIn = .ok (v, t)) : exec i s = .next ((controlOf i.opcode s.cy).latch s t i.operand v) := by
  obtain ⟨v', t', hp', rfl, -⟩ | ⟨x, hx, -⟩ := portIn_cases s
  · obtain ⟨rfl, rfl⟩ := Prod.mk.inj (Except.ok.inj (hp.symm.trans hp'))
    cases i with
    | inA u => exact inputTo_of_portIn .a hp
    | inB u => exact inputTo_of_portIn .b hp
    | _ => cases h
  · rw [hx] at hp; cases hp

/-- An IN whose sample is out of range raises the error, as the datapath does. -/
theorem exec_of_portIn_error {i : Instr} {s : State} {x : Nat} (h : (accessOf i).readsInput = true)
    (hp : s.portIn = .error x) : exec i s = s.raiseOutOfBoundsInput x := by
  obtain ⟨r, hr⟩ := exec_readsInput h
  rw [hr, State.inputTo, hp]

/-- Where the fetched word decodes and the halt test fails, the datapath does what the instruction does. -/
theorem datapathStep_eq_exec {s : State} {w : Byte} {i : Instr} (hf : s.fetch = some w) (hd : decode w = .ok i)
    (hj : selfJump s.haltPolicy (opcodeOf w) (operandOf w) s.pc s.cy = false) : datapathStep s = exec i s := by
  obtain ⟨hop, him⟩ := fields_of_decode hd
  have herr := controlOf_err_of_decode hd s.cy
  have hin : (controlOf (opcodeOf w) s.cy).inRe = (accessOf i).readsInput := hop ▸ controlOf_inRe i s.cy
  cases hi : (accessOf i).readsInput
  · rw [exec_eq_latch s hi, hop, him]
    simp [datapathStep, hf, herr, hj, hin, hi]
  · rcases hp : s.portIn with x | ⟨v, t⟩
    · rw [exec_of_portIn_error hi hp]
      simp [datapathStep, hf, herr, hj, hin, hi, hp]
    · rw [exec_eq_latch_sample hi hp, hop, him]
      simp [datapathStep, hf, herr, hj, hin, hi, hp]

/-! ### The statements -/

/-- Settles O4, from the two directions `decode_encode` and `encode_of_decode`. -/
theorem encodeDecodeRoundTrip : Obligations.EncodeDecodeRoundTrip :=
  ⟨decode_encode, fun _ _ => encode_of_decode⟩

/-- Settles O2: whether a word decodes is the check of its opcode. -/
theorem decoderContract : Obligations.DecoderContract := by
  refine ⟨fun w => ?_, fun v w h => ?_, fun w i => fields_of_decode⟩
  · obtain ⟨i, hi, -⟩ | ⟨he, -⟩ := decode_cases w
    · exact .inl ⟨i, hi⟩
    · exact .inr he
  · rw [decode_ok_iff, decode_ok_iff, h]

/-- Settles O51, case by case of what a step can do. -/
theorem datapathEqualsMachine : Obligations.DatapathEqualsMachine := by
  intro s
  obtain ⟨hf, -, hs⟩ | ⟨w, hf, hw, -, hs⟩ |
    ⟨w, i, hf, hd, -, -, hj, -, hs⟩ | ⟨w, i, hf, hd, -, -, hj, -, hs⟩ := step_cases s
  · simp [datapathStep, hf, hs]
  · simp [datapathStep, hf, hs, controlOf_err, hw, State.raiseDecodeError, raise]
  · simp [datapathStep, hf, hs, controlOf_err_of_decode hd, hj]
  · rw [hs, datapathStep_eq_exec hf hd hj]

/-- Settles O1: each word is evaluated by the decoder. -/
theorem wordsOfEveryFamilyDecode : Obligations.WordsOfEveryFamilyDecode := by
  unfold Obligations.WordsOfEveryFamilyDecode
  and_intros <;> rfl

/-- Settles O3: the rejected words are those whose opcode the check refuses, a block of 16 for each of the four. -/
theorem invalidOpcodesAreExactlyFour : Obligations.InvalidOpcodesAreExactlyFour := by
  refine ⟨fun w => ?_, countP_rejected, fun s w hf hw => ?_⟩
  · rw [decode_error_iff, opcode_invalid_iff]
  · exact step_of_invalid hf ((opcode_invalid_iff _).2 hw)

/-- Settles O5: `j` is `i` with another operand, and the meanings of the five such instructions do not look at it. -/
theorem unusedLowNibbleIsIgnored : Obligations.UnusedLowNibbleIsIgnored := by
  intro i j s hu hop
  cases i with
  | movAB u => exact exec_congr_fields (i := .movAB j.operand) s hop rfl
  | movBA u => exact exec_congr_fields (i := .movBA j.operand) s hop rfl
  | inA u => exact exec_congr_fields (i := .inA j.operand) s hop rfl
  | inB u => exact exec_congr_fields (i := .inB j.operand) s hop rfl
  | outB u => exact exec_congr_fields (i := .outB j.operand) s hop rfl
  | _ => cases hu

/-- Settles O6, from the two halves of the opcode and the two ADD opcodes. -/
theorem opcodeBitsNameDestinationAndSource : Obligations.OpcodeBitsNameDestinationAndSource := by
  intro i
  obtain ⟨hA, hB, hOutp, hJump⟩ := destination_bits i
  obtain ⟨hReadsA, hReadsB, hInput⟩ := source_bits i
  exact ⟨hA, hB, hOutp, hJump, hReadsA, hReadsB, hInput, isAdd_iff i⟩

/-- Settles O52, row by row of the control table. -/
theorem atMostOneDestination : Obligations.AtMostOneDestination := by
  intro op cy
  refine ⟨controlOf_destinations op cy, ?_, controlOf_of_err op cy⟩
  rw [controlOf_err, Bool.not_eq_true', opcode_check_iff]

end Sys2Proof.Proofs
end

section
/-! PROOFS of the family 40_add.md. Both ADD instructions are one operation, `addTo`, on either register: its sum and its carry as
arithmetic, and for the immediate `16 - k` as a subtraction. What an ADD leaves alone is its row of the matrix (`exec_effect`). -/

namespace Sys2Proof.Proofs

open Sys2Proof.Machine Sys2Proof.Laws

/-! ### The addition, for both registers -/

theorem exec_addAIm (im : Nibble) (s : State) : exec (.addAIm im) s = .next (s.addTo .a im) := rfl

theorem exec_addBIm (im : Nibble) (s : State) : exec (.addBIm im) s = .next (s.addTo .b im) := rfl

/-- `addTo` leaves the sum modulo 16 in its register (40_add.md R53). -/
theorem addTo_reg_toNat (s : State) (r : Reg) (im : Nibble) :
    ((s.addTo r im).reg r).toNat = ((s.reg r).toNat + im.toNat) % 16 := by
  rw [← aluResult_toNat]
  cases r <;> rfl

/-- `addTo` leaves the carry out in Cy, from the register and the immediate alone (40_add.md R53, R57). -/
theorem addTo_cy_iff (s : State) (r : Reg) (im : Nibble) :
    (s.addTo r im).cy = true ↔ (s.reg r).toNat + im.toNat > 15 :=
  aluCarry_iff (s.reg r) im

theorem addTo_advances (s : State) (r : Reg) (im : Nibble) : Advances s (s.addTo r im) := by
  rw [Advances, addTo_eq, nextPc_toNat]

/-- An effect leaves the program alone, whatever the row. -/
theorem Effect.sameProgram {c : Access} {s t : State} (h : Effect c s t) : SameProgram s t :=
  ⟨fun x => by rw [h.rom], h.haltPolicy⟩

/-- The rows that write Cy are those of the two ADDs (10_state.md R14). -/
theorem writesCy_eq_isAdd (i : Instr) : (accessOf i).writesCy = isAdd i := by
  cases i <;> rfl

/-! ### The immediate `16 - k` -/

/-- The immediate `16 - k` fits in four bits for `k` from 1 on. -/
theorem complement_toNat {k : Nat} (h : 1 ≤ k) : (BitVec.ofNat 4 (16 - k)).toNat = 16 - k := by
  rw [BitVec.toNat_ofNat]
  omega

/-- Adding `16 - k` subtracts `k` modulo 16 (40_add.md R54). -/
theorem addTo_complement_reg (s : State) (r : Reg) {k : Nat} (h₁ : 1 ≤ k) (h₁₅ : k ≤ 15) :
    (((s.addTo r (BitVec.ofNat 4 (16 - k))).reg r).toNat : Int) = ((s.reg r).toNat - k) % 16 := by
  rw [addTo_reg_toNat, complement_toNat h₁]
  omega

/-- Adding `16 - k` carries out exactly where subtracting `k` needs no borrow (40_add.md R54). -/
theorem addTo_complement_cy_iff (s : State) (r : Reg) {k : Nat} (h₁ : 1 ≤ k) (h₁₅ : k ≤ 15) :
    (s.addTo r (BitVec.ofNat 4 (16 - k))).cy = true ↔ k ≤ (s.reg r).toNat := by
  rw [addTo_cy_iff, complement_toNat h₁]
  omega

/-! ### The statements -/

/-- Settles O7: the sum and the carry of `addTo` on A, and the frame of its row. -/
theorem addAImSetsSumAndCarry : Obligations.AddAImSetsSumAndCarry := by
  intro im s
  have hframe := exec_effect (exec_addAIm im s)
  exact ⟨_, exec_addAIm im s, addTo_reg_toNat s .a im, addTo_cy_iff s .a im, addTo_advances s .a im,
    hframe.b rfl, hframe.noOutput rfl, hframe.noSample rfl, hframe.sameProgram, rfl⟩

/-- Settles O8: the sum and the carry of `addTo` on B, and the frame of its row. -/
theorem addBImSetsSumAndCarry : Obligations.AddBImSetsSumAndCarry := by
  intro im s
  have hframe := exec_effect (exec_addBIm im s)
  exact ⟨_, exec_addBIm im s, addTo_reg_toNat s .b im, addTo_cy_iff s .b im, addTo_advances s .b im,
    hframe.a rfl, hframe.noOutput rfl, hframe.noSample rfl, hframe.sameProgram, rfl⟩

/-- Settles O20: `addTo` with the immediate `16 - k`, on A and on B. -/
theorem addingComplementSubtracts : Obligations.AddingComplementSubtracts :=
  fun _ s h₁ h₁₅ =>
    ⟨⟨_, exec_addAIm _ s, addTo_complement_reg s .a h₁ h₁₅, addTo_complement_cy_iff s .a h₁ h₁₅⟩,
      ⟨_, exec_addBIm _ s, addTo_complement_reg s .b h₁ h₁₅, addTo_complement_cy_iff s .b h₁ h₁₅⟩⟩

/-- Settles O22: the carry of `addTo` does not read the old Cy, and no row but an ADD's writes Cy. -/
theorem everyAddOverwritesCarry : Obligations.EveryAddOverwritesCarry := by
  refine ⟨fun im s c t h => ?_, fun im s c t h => ?_, fun i s t hadd h => ?_⟩
  · cases h
    exact addTo_cy_iff { s with cy := c } .a im
  · cases h
    exact addTo_cy_iff { s with cy := c } .b im
  · exact (exec_effect h).cy ((writesCy_eq_isAdd i).trans hadd)

end Sys2Proof.Proofs
end

section
/-! PROOFS of the family 41_mov.md. The four MOV instructions are one operation, `copyTo`, from the other register or from the
immediate: its destination takes the value and PC advances (R58). What a MOV leaves alone is its row of the matrix (`exec_effect`). -/

namespace Sys2Proof.Proofs

open Sys2Proof.Machine Sys2Proof.Laws

/-! ### The copy, for both registers and every source -/

theorem exec_movAB (u : Nibble) (s : State) : exec (.movAB u) s = .next (s.copyTo .a s.b) := rfl

theorem exec_movAIm (im : Nibble) (s : State) : exec (.movAIm im) s = .next (s.copyTo .a im) := rfl

theorem exec_movBA (u : Nibble) (s : State) : exec (.movBA u) s = .next (s.copyTo .b s.a) := rfl

theorem exec_movBIm (im : Nibble) (s : State) : exec (.movBIm im) s = .next (s.copyTo .b im) := rfl

/-- `copyTo` leaves the value in its register, as it stands (41_mov.md R58). -/
theorem copyTo_reg (s : State) (r : Reg) (v : Nibble) : (s.copyTo r v).reg r = v := by
  cases r <;> rfl

theorem copyTo_advances (s : State) (r : Reg) (v : Nibble) : Advances s (s.copyTo r v) := by
  rw [Advances, copyTo_eq, nextPc_toNat]

/-! ### The statements -/

/-- Settles O9: B through `copyTo` into A, and the frame of its row. -/
theorem movABCopiesB : Obligations.MovABCopiesB := by
  intro u s
  have hframe := exec_effect (exec_movAB u s)
  exact ⟨_, exec_movAB u s, copyTo_reg s .a s.b, hframe.b rfl, hframe.cy rfl, copyTo_advances s .a s.b,
    hframe.noOutput rfl, hframe.noSample rfl, hframe.sameProgram, rfl⟩

/-- Settles O10: the immediate through `copyTo` into A, and the frame of its row. -/
theorem movAImLoadsImmediate : Obligations.MovAImLoadsImmediate := by
  intro im s
  have hframe := exec_effect (exec_movAIm im s)
  exact ⟨_, exec_movAIm im s, copyTo_reg s .a im, hframe.b rfl, hframe.cy rfl, copyTo_advances s .a im,
    hframe.noOutput rfl, hframe.noSample rfl, hframe.sameProgram, rfl⟩

/-- Settles O11: A through `copyTo` into B, and the frame of its row. -/
theorem movBACopiesA : Obligations.MovBACopiesA := by
  intro u s
  have hframe := exec_effect (exec_movBA u s)
  exact ⟨_, exec_movBA u s, copyTo_reg s .b s.a, hframe.a rfl, hframe.cy rfl, copyTo_advances s .b s.a,
    hframe.noOutput rfl, hframe.noSample rfl, hframe.sameProgram, rfl⟩

/-- Settles O12: the immediate through `copyTo` into B, and the frame of its row. -/
theorem movBImLoadsImmediate : Obligations.MovBImLoadsImmediate := by
  intro im s
  have hframe := exec_effect (exec_movBIm im s)
  exact ⟨_, exec_movBIm im s, copyTo_reg s .b im, hframe.a rfl, hframe.cy rfl, copyTo_advances s .b im,
    hframe.noOutput rfl, hframe.noSample rfl, hframe.sameProgram, rfl⟩

end Sys2Proof.Proofs
end

section
/-! PROOFS of the family 42_io.md. The two IN are one operation, `inputTo`, the copy of one sample into a register; the two OUT are one
operation, `output`. What a port instruction leaves alone, and how often it touches its port, is its row of the matrix (`exec_effect`). -/

namespace Sys2Proof.Proofs

open Sys2Proof.Machine Sys2Proof.Laws

/-! ### The input, for both registers -/

theorem exec_inA (u : Nibble) (s : State) : exec (.inA u) s = s.inputTo .a := rfl

theorem exec_inB (u : Nibble) (s : State) : exec (.inB u) s = s.inputTo .b := rfl

/-- With the next listed value in range, `inputTo` copies a sample that is this value where there is one (42_io.md R63). -/
theorem inputTo_inRange {s : State} (r : Reg) (h : NextInputInRange s) :
    ∃ v, s.inputTo r = .next ((afterSample s).copyTo r v) ∧ ∀ x, s.supply.head? = some x → v.toNat = x := by
  obtain ⟨v, hv, listed, -⟩ | ⟨x, -, hx, hlt⟩ := inputTo_cases s r
  · exact ⟨v, hv, fun x hx => (listed x hx).2⟩
  · exact absurd (h x hx) (Nat.not_le.2 hlt)

/-- With nothing listed, `inputTo` copies the free sample of the counter (93_implementation_defined.md U5; log entry 5). -/
theorem inputTo_unlisted {s : State} (r : Reg) (h : s.supply = []) :
    s.inputTo r = .next { (s.setReg r (Config.inputSample s.samples)) with
      pc := nextPc s.pc, samples := s.samples + 1 } := by
  obtain ⟨v, hv, -, free⟩ | ⟨x, -, hx, -⟩ := inputTo_cases s r
  · rw [hv, free h]
    cases r <;> simp [State.setReg, State.advance, h]
  · simp [h] at hx

/-! ### The output, for every source -/

theorem exec_outB (u : Nibble) (s : State) : exec (.outB u) s = .next (s.output s.b) := rfl

theorem exec_outIm (im : Nibble) (s : State) : exec (.outIm im) s = .next (s.output im) := rfl

/-- `output` puts the value on the port with one event, whatever OUTP held (42_io.md R66). -/
theorem output_oneOutput (s : State) (v : Nibble) : OneOutput v s (s.output v) := by
  rw [output_eq]
  exact ⟨rfl, rfl⟩

theorem output_advances (s : State) (v : Nibble) : Advances s (s.output v) := by
  rw [Advances, output_eq, nextPc_toNat]

/-! ### The statements -/

/-- Settles O46, from the effect of the instruction's row. -/
theorem onlyInTakesASample : Obligations.OnlyInTakesASample := by
  intro i s t h
  have hi := exec_effect h
  exact ⟨hi.oneSample, hi.noSample⟩

/-- Settles O47, from the effect of the instruction's row. -/
theorem onlyOutEmitsAnEvent : Obligations.OnlyOutEmitsAnEvent := by
  intro i s t h
  have hi := exec_effect h
  exact ⟨hi.oneOutput, hi.noOutput⟩

/-- Settles O13: the sample through `copyTo` into A, and the frame of its row. -/
theorem inATakesOneSample : Obligations.InATakesOneSample := by
  intro u s h
  obtain ⟨v, hexec, hlisted⟩ := inputTo_inRange .a h
  have hframe := exec_effect ((exec_inA u s).trans hexec)
  exact ⟨_, hexec, hlisted, hframe.b rfl, hframe.cy rfl, copyTo_advances (afterSample s) .a v,
    hframe.noOutput rfl, hframe.oneSample rfl, hframe.sameProgram, rfl⟩

/-- Settles O14: the sample through `copyTo` into B, and the frame of its row. -/
theorem inBTakesOneSample : Obligations.InBTakesOneSample := by
  intro u s h
  obtain ⟨v, hexec, hlisted⟩ := inputTo_inRange .b h
  have hframe := exec_effect ((exec_inB u s).trans hexec)
  exact ⟨_, hexec, hlisted, hframe.a rfl, hframe.cy rfl, copyTo_advances (afterSample s) .b v,
    hframe.noOutput rfl, hframe.oneSample rfl, hframe.sameProgram, rfl⟩

/-- Settles O15: `inputTo` with nothing listed, into A and into B. -/
theorem unlistedSampleIsFree : Obligations.UnlistedSampleIsFree :=
  fun _ _ h => ⟨inputTo_unlisted .a h, inputTo_unlisted .b h⟩

/-- Settles O16: `output` of B, and the frame of its row. -/
theorem outBWritesOutputPort : Obligations.OutBWritesOutputPort := by
  intro u s
  have hframe := exec_effect (exec_outB u s)
  exact ⟨_, exec_outB u s, output_oneOutput s s.b, hframe.a rfl, hframe.b rfl, hframe.cy rfl, output_advances s s.b,
    hframe.noSample rfl, hframe.sameProgram, rfl⟩

/-- Settles O17: `output` of the immediate, and the frame of its row. -/
theorem outImWritesOutputPort : Obligations.OutImWritesOutputPort := by
  intro im s
  have hframe := exec_effect (exec_outIm im s)
  exact ⟨_, exec_outIm im s, output_oneOutput s im, hframe.a rfl, hframe.b rfl, hframe.cy rfl, output_advances s im,
    hframe.noSample rfl, hframe.sameProgram, rfl⟩

end Sys2Proof.Proofs
end

section
/-! PROOFS of the family 43_jump.md. Both jumps are one operation, `jump`, which loads PC and nothing else (R69): JMP always with its
immediate, JNC with its immediate where Cy is 0 and with the next address where Cy is 1 (`exec_jncIm`). -/

namespace Sys2Proof.Proofs

open Sys2Proof.Machine Sys2Proof.Laws

/-! ### The two jumps as `jump` -/

theorem exec_jmpIm (im : Nibble) (s : State) : exec (.jmpIm im) s = .next (s.jump im) := rfl

/-- A jump loads PC with its immediate, or is a JNC that Cy = 1 makes load the next address (43_jump.md R70, R71). -/
theorem exec_isJump {i : Instr} (s : State) (h : isJump i = true) :
    ∃ x, exec i s = .next (s.jump x) ∧ (x = i.operand ∨ (x = nextPc s.pc ∧ s.cy = true ∧ i.opcode = 0b1110#4)) := by
  cases i with
  | jncIm im =>
    refine ⟨_, exec_jncIm im s, ?_⟩
    cases hcy : s.cy with
    | false => exact .inl (if_pos rfl)
    | true => exact .inr ⟨if_neg (by decide), rfl, rfl⟩
  | jmpIm im => exact ⟨im, exec_jmpIm im s, .inl rfl⟩
  | _ => cases h

/-- Loading PC with the next address is the sequential advance (44_engine.md R75). -/
theorem jump_nextPc_advances (s : State) : Advances s (s.jump (nextPc s.pc)) := by
  rw [Advances, jump_pc, nextPc_toNat]

/-! ### The statements -/

/-- Settles O23: the next state is a `jump` to the immediate, or to the next address. -/
theorem jumpsChangeOnlyPc : Obligations.JumpsChangeOnlyPc := by
  intro i s h
  obtain ⟨x, hexec, hx⟩ := exec_isJump s h
  exact ⟨s.jump x, hexec, rfl, hx⟩

/-- Settles O18: the target by the value of Cy, and the frame of its row. -/
theorem jncImJumpsIfNoCarry : Obligations.JncImJumpsIfNoCarry := by
  intro im s
  have hframe := exec_effect (exec_jncIm im s)
  refine ⟨_, exec_jncIm im s, fun hcy => if_pos hcy, fun hcy => ?_, hframe.cy rfl, hframe.a rfl, hframe.b rfl,
    hframe.noOutput rfl, hframe.noSample rfl, hframe.sameProgram, rfl⟩
  rw [if_neg (by simp [hcy])]
  exact jump_nextPc_advances s

/-- Settles O19: `jump` to the immediate, and the frame of its row. -/
theorem jmpImJumpsAlways : Obligations.JmpImJumpsAlways := by
  intro im s
  have hframe := exec_effect (exec_jmpIm im s)
  exact ⟨_, exec_jmpIm im s, jump_pc s im, hframe.cy rfl, hframe.a rfl, hframe.b rfl,
    hframe.noOutput rfl, hframe.noSample rfl, hframe.sameProgram, rfl⟩

end Sys2Proof.Proofs
end

section
/-! PROOFS of the family 44_engine.md. A step is the halt test and then `exec` (`step_of_decode`); an executed instruction changes
nothing exactly where the default halt test holds (`exec_eq_self_iff`); and a caller's run ends in a result exactly where its steps
come to a turn with that result (`runFor_eq_iff`). -/

namespace Sys2Proof.Proofs

open Sys2Proof.Machine Sys2Proof.Laws

/-! ### Where PC goes -/

/-- Every instruction but a jump leaves PC at the next address (44_engine.md R75). -/
theorem exec_pc_of_not_isJump {i : Instr} {s t : State} (hi : isJump i = false) (h : exec i s = .next t) : t.pc = nextPc s.pc := by
  cases i with
  | inA u => obtain ⟨v, rfl⟩ := inputTo_next h; rfl
  | inB u => obtain ⟨v, rfl⟩ := inputTo_next h; rfl
  | jncIm im => cases hi
  | jmpIm im => cases hi
  | _ => cases h; rfl

/-- An executed instruction leaves PC at the next address, or is a JMP, or a JNC with Cy = 0, and leaves it at its immediate. -/
theorem exec_pc_cases {i : Instr} {s t : State} (h : exec i s = .next t) :
    t.pc = nextPc s.pc ∨ (t.pc = i.operand ∧ (i.opcode = 0b1111#4 ∨ (i.opcode = 0b1110#4 ∧ s.cy = false))) := by
  cases i with
  | jncIm im =>
    rw [exec_jncIm] at h
    cases h
    cases hcy : s.cy with
    | false => exact .inr ⟨(jump_pc s _).trans (if_pos rfl), .inr ⟨rfl, rfl⟩⟩
    | true => exact .inl ((jump_pc s _).trans (if_neg (by decide)))
  | jmpIm im => cases h; exact .inr ⟨rfl, .inl rfl⟩
  | _ => exact .inl (exec_pc_of_not_isJump rfl h)

/-! ### The halt test -/

/-- Each policy halts only where the default one does (44_engine.md R77). -/
theorem selfJump_default {policy : HaltPolicy} {op im pc : Nibble} {cy : Bool} (h : selfJump policy op im pc cy = true) :
    selfJump .takenSelfJump op im pc cy = true := by
  obtain ⟨taken, jmpOnly, never⟩ := selfJump_iff op im pc cy
  cases policy with
  | takenSelfJump => exact h
  | jmpSelfOnly =>
    obtain ⟨him, hop⟩ := jmpOnly.1 h
    exact taken.2 ⟨him, .inl hop⟩
  | noDetection => rw [never] at h; cases h

/-- A self-jump has a valid opcode. -/
theorem opcode_of_selfJump {policy : HaltPolicy} {op im pc : Nibble} {cy : Bool} (h : selfJump policy op im pc cy = true) :
    WellFormed.opcode op = true := by
  obtain ⟨-, rfl | ⟨rfl, -⟩⟩ := (selfJump_iff op im pc cy).1.1 (selfJump_default h) <;> rfl

/-- An executed instruction leaves the whole state as it is exactly where the default halt test holds: PC never is its own successor. -/
theorem exec_eq_self_iff (i : Instr) (s : State) :
    exec i s = .next s ↔ selfJump .takenSelfJump i.opcode i.operand s.pc s.cy = true := by
  rw [(selfJump_iff i.opcode i.operand s.pc s.cy).1]
  constructor
  · intro h
    obtain hpc | ⟨hpc, hop⟩ := exec_pc_cases h
    · exact absurd hpc.symm (nextPc_ne s.pc)
    · exact ⟨hpc.symm, hop⟩
  · rintro ⟨him, hop⟩
    cases i with
    | jncIm im =>
      have hcy : s.cy = false := by simpa [Instr.opcode] using hop
      obtain rfl : im = s.pc := him
      rw [exec_jncIm, if_pos hcy]
      rfl
    | jmpIm im =>
      obtain rfl : im = s.pc := him
      exact exec_jmpIm s.pc s
    | _ => simp [Instr.opcode] at hop

/-- With a fetched word the status is HALT exactly where the halt test holds: the invalid opcodes, tested first, are no jumps. -/
theorem status_eq_halt_iff {s : State} {w : Byte} (hf : s.fetch = some w) :
    s.status = some .halt ↔ selfJump s.haltPolicy (opcodeOf w) (operandOf w) s.pc s.cy = true := by
  cases hj : selfJump s.haltPolicy (opcodeOf w) (operandOf w) s.pc s.cy
  · cases hw : WellFormed.opcode (opcodeOf w) <;> simp [State.status, statusOf, hf, hj, hw]
  · simp [State.status, statusOf, hf, hj, opcode_of_selfJump hj]

/-! ### One step -/

/-- Where the fetched word decodes, a step is the halt test and then the instruction (44_engine.md R74). -/
theorem step_of_decode {s : State} {w : Byte} {i : Instr} (hf : s.fetch = some w) (hd : decode w = .ok i) :
    step s = if selfJump s.haltPolicy (opcodeOf w) (operandOf w) s.pc s.cy = true then .next s else exec i s := by
  rw [step_of_fetch hf, stepOn, hd]

/-- A step at HALT leaves the state as it is (log entry 3). -/
theorem step_of_halt {s : State} (h : s.status = some .halt) : step s = .next s := by
  obtain ⟨hf, -⟩ | ⟨w, -, -, hst, -⟩ | ⟨w, i, -, -, -, -, -, -, hs⟩ | ⟨w, i, -, -, -, -, -, hst, -⟩ := step_cases s
  · simp [State.status, hf] at h
  · rw [hst] at h; cases h
  · exact hs
  · rw [hst] at h; cases h

/-- A clock edge at HALT or FAULT leaves the state as it is: only RUN leads to another one. -/
theorem clockEdge_of_ended {s : State} (h : s.status = some .halt ∨ s.status = some .fault) : clockEdge s = s := by
  rcases hs : step s with t | r | r
  · obtain ⟨-, rfl⟩ | ⟨w, i, -, -, hst, -⟩ := step_next_cases hs
    · rw [clockEdge, hs]
    · simp [hst] at h
  · rw [clockEdge, hs]
  · rw [clockEdge, hs]

/-! ### The host's duties over a step -/

theorem supplyInRange_iff (s : State) : SupplyInRange s ↔ ∀ v ∈ s.supply, v ≤ Config.maxInput := by
  simp [SupplyInRange, WellFormed.supply]

/-- A supply in range has its next value in range. -/
theorem nextInputInRange_of_supplyInRange {s : State} (h : SupplyInRange s) : NextInputInRange s :=
  fun v hv => (supplyInRange_iff s).1 h v (List.mem_of_head? hv)

/-- A supply that is only consumed stays in range. -/
theorem PortsExtend.supplyInRange {n : Nat} {s t : State} (h : PortsExtend n s t) (hs : SupplyInRange s) : SupplyInRange t := by
  obtain ⟨k, -, -, hdrop⟩ := h.inputs
  rw [supplyInRange_iff] at hs ⊢
  rw [hdrop]
  exact fun v hv => hs v (List.mem_of_mem_drop hv)

/-- With both duties kept a step goes on with both still kept, or fetches an invalid word. -/
theorem step_of_duties {s : State} (hi : ProgramImage s) (hin : SupplyInRange s) :
    (∃ t, step s = .next t ∧ ProgramImage t ∧ SupplyInRange t) ∨
    (∃ w, s.fetch = some w ∧ opcodeOf w ∈ WellFormed.invalidOpcodes ∧ step s = .fault (.decodeError s.pc w)) := by
  have goesOn {t : State} (h : step s = .next t) : ∃ t, step s = .next t ∧ ProgramImage t ∧ SupplyInRange t :=
    ⟨t, h, programImage_congr (step_rom h) hi, (step_portsExtend h).supplyInRange hin⟩
  obtain ⟨-, hno, -⟩ | ⟨w, hf, hw, -, hs⟩ | ⟨w, i, -, -, -, -, -, -, hs⟩ | ⟨w, i, -, -, -, -, -, -, hs⟩ := step_cases s
  · rw [hi] at hno; cases hno
  · exact .inr ⟨w, hf, (opcode_check_iff _).1 hw, hs⟩
  · exact .inl (goesOn hs)
  · obtain ⟨t, ht⟩ := exec_completes_inRange i s fun _ => nextInputInRange_of_supplyInRange hin
    exact .inl (goesOn (hs.trans ht))

/-- A first step that faults ends the run in that fault. -/
theorem stepN_succ_fault (k : Nat) {s : State} {r : Fault} (h : step s = .fault r) : stepN (k + 1) s = .fault r := by
  simp [stepN, h]

/-! ### A caller's run -/

/-- `k` steps lead from `s` to `f`, with status RUN at every point before. -/
def RunsTo (k : Nat) (s f : State) : Prop :=
  stepN k s = .next f ∧ ∀ j g, j < k → stepN j s = .next g → g.status = some .run

theorem runsTo_zero_iff (s f : State) : RunsTo 0 s f ↔ f = s :=
  ⟨fun h => (Host.Outcome.next.inj h.1).symm, fun h => ⟨h ▸ rfl, fun _ _ hj => absurd hj (Nat.not_lt_zero _)⟩⟩

theorem runsTo_succ_iff (k : Nat) (s f : State) :
    RunsTo (k + 1) s f ↔ s.status = some .run ∧ ∃ t, step s = .next t ∧ RunsTo k t f := by
  constructor
  · rintro ⟨h, hrun⟩
    obtain ⟨t, ht, hf⟩ := stepN_succ_cases k s f h
    exact ⟨hrun 0 s k.succ_pos rfl, t, ht, hf,
      fun j g hj hg => hrun (j + 1) g (Nat.succ_lt_succ hj) ((stepN_succ j s t ht).trans hg)⟩
  · rintro ⟨hs, t, ht, hf, hrun⟩
    refine ⟨(stepN_succ k s t ht).trans hf, fun j g hj hg => ?_⟩
    cases j with
    | zero => cases hg; exact hs
    | succ j => exact hrun j g (Nat.lt_of_succ_lt_succ hj) ((stepN_succ j s t ht).symm.trans hg)

/-- A turn goes on exactly where the status is RUN and the step answers a next state. -/
theorem turn_eq_inr_iff (n : Nat) (s t : State) : turn n s = .inr t ↔ s.status = some .run ∧ step s = .next t := by
  obtain ⟨hst, hn⟩ | ⟨hst, ⟨r, hs, hn⟩ | ⟨r, hs, hn⟩ | ⟨u, hs, hn⟩⟩ := turn_cases n s
  · simp [hn, hst]
  · simp [hn, hs]
  · simp [hn, hs]
  · have hrun : s.status = some .run := by
      obtain ⟨hhalt, -⟩ | ⟨w, i, -, -, hrun, -⟩ := step_next_cases hs
      · exact absurd hhalt hst
      · exact hrun
    simp [hn, hs, hrun]

/-- A turn ends in `Halted` exactly at status HALT. -/
theorem turn_eq_halted_iff (n : Nat) (s f : State) (k : Nat) :
    turn n s = .inl (.halted f k) ↔ s.status = some .halt ∧ s = f ∧ n = k := by
  obtain ⟨hst, hn⟩ | ⟨hst, ⟨r, hs, hn⟩ | ⟨r, hs, hn⟩ | ⟨u, hs, hn⟩⟩ := turn_cases n s <;> simp [hn, hst]

/-- A turn ends in an abort exactly where the step faults. -/
theorem turn_eq_aborted_iff (n : Nat) (s : State) (r : Fault) (f : State) (k : Nat) :
    turn n s = .inl (.aborted r f k) ↔ step s = .fault r ∧ s = f ∧ n = k := by
  obtain ⟨hst, hn⟩ | ⟨-, ⟨r, hs, hn⟩ | ⟨r, hs, hn⟩ | ⟨u, hs, hn⟩⟩ := turn_cases n s
  · simp [hn, step_of_halt hst]
  all_goals simp [hn, hs]

theorem runFor_of_turn_inl (b : Nat) {n : Nat} {s : State} {r : RunResult} (h : turn n s = .inl r) : runFor b n s = r := by
  cases b <;> rw [runFor, h]

theorem runFor_succ_of_turn_inr (b : Nat) {n : Nat} {s t : State} (h : turn n s = .inr t) :
    runFor (b + 1) n s = runFor b (n + 1) t := by
  rw [runFor, h]

theorem runFor_zero_of_turn_inr {n : Nat} {s t : State} (h : turn n s = .inr t) : runFor 0 n s = .abandoned s n := by
  rw [runFor, h]

/-- Under the ceiling `b` a run has the result `r`, the caller's abandoning aside, exactly where at most `b` steps at status RUN lead
to a turn that ends in `r` (44_engine.md R79, R83, R84). -/
theorem runFor_eq_iff {r : RunResult} (hr : ∀ g m, r ≠ .abandoned g m) (b n : Nat) (s : State) :
    runFor b n s = r ↔ ∃ k f, k ≤ b ∧ RunsTo k s f ∧ turn (n + k) f = .inl r := by
  constructor
  · intro h
    induction b generalizing n s with
    | zero =>
      rcases hn : turn n s with q | t
      · obtain rfl : q = r := (runFor_of_turn_inl 0 hn).symm.trans h
        exact ⟨0, s, le_rfl, (runsTo_zero_iff s s).2 rfl, hn⟩
      · exact absurd (h.symm.trans (runFor_zero_of_turn_inr hn)) (hr s n)
    | succ b ih =>
      rcases hn : turn n s with q | t
      · obtain rfl : q = r := (runFor_of_turn_inl (b + 1) hn).symm.trans h
        exact ⟨0, s, Nat.zero_le _, (runsTo_zero_iff s s).2 rfl, hn⟩
      · obtain ⟨k, f, hk, hf, hend⟩ := ih (n + 1) t ((runFor_succ_of_turn_inr b hn).symm.trans h)
        obtain ⟨hs, ht⟩ := (turn_eq_inr_iff n s t).1 hn
        exact ⟨k + 1, f, Nat.succ_le_succ hk, (runsTo_succ_iff k s f).2 ⟨hs, t, ht, hf⟩,
          by rw [← hend, Nat.add_assoc, Nat.add_comm 1 k]⟩
  · rintro ⟨k, f, hk, hf, hend⟩
    induction k generalizing b n s with
    | zero =>
      obtain rfl := (runsTo_zero_iff s f).1 hf
      exact runFor_of_turn_inl b hend
    | succ k ih =>
      obtain ⟨b, rfl⟩ : ∃ c, b = c + 1 := ⟨b - 1, by omega⟩
      obtain ⟨hs, t, ht, hf⟩ := (runsTo_succ_iff k s f).1 hf
      rw [runFor_succ_of_turn_inr b ((turn_eq_inr_iff n s t).2 ⟨hs, ht⟩)]
      exact ih b (n + 1) t (Nat.le_of_succ_le_succ hk) hf (by rw [← hend, Nat.add_assoc, Nat.add_comm 1 k])

/-- Where turns end in `r` exactly at the state `f` that meets `P`, after `k` transitions, a run from its start has the result `r` exactly
where `k` steps at status RUN lead to `f` and `f` meets `P`. -/
theorem runFor_eq_end_iff {r : RunResult} (hr : ∀ g m, r ≠ .abandoned g m) {P : State → Prop} {f : State} {k : Nat} (b : Nat) (s : State)
    (hturn : ∀ m g, turn m g = .inl r ↔ P g ∧ g = f ∧ m = k) :
    runFor b 0 s = r ↔
      k ≤ b ∧ stepN k s = .next f ∧ P f ∧ ∀ j g, j < k → stepN j s = .next g → g.status = some .run := by
  rw [runFor_eq_iff hr]
  constructor
  · rintro ⟨m, g, hm, ⟨hg, hrun⟩, hend⟩
    obtain ⟨hP, rfl, rfl⟩ := (hturn (0 + m) g).1 hend
    rw [Nat.zero_add]
    exact ⟨hm, hg, hP, hrun⟩
  · rintro ⟨hk, hf, hP, hrun⟩
    exact ⟨k, f, hk, ⟨hf, hrun⟩, (hturn (0 + k) f).2 ⟨hP, rfl, Nat.zero_add k⟩⟩

/-- A result that is not the caller's abandoning stays under every larger ceiling (44_engine.md R83). -/
theorem runFor_larger_ceiling {r : RunResult} (hr : ∀ g m, r ≠ .abandoned g m) {b n : Nat} {s : State} (more : Nat)
    (h : runFor b n s = r) : runFor (b + more) n s = r := by
  obtain ⟨k, f, hk, hf, hend⟩ := (runFor_eq_iff hr b n s).1 h
  exact (runFor_eq_iff hr (b + more) n s).2 ⟨k, f, Nat.le_add_right_of_le hk, hf, hend⟩

/-! ### The statements -/

/-- Settles O45, by induction on the number of steps, each by `step_of_duties`. -/
theorem keptDutiesLeaveOnlyDecodeError : Obligations.KeptDutiesLeaveOnlyDecodeError := by
  intro n
  induction n with
  | zero => exact fun s hi hin => .inl ⟨s, rfl, hi, hin⟩
  | succ n ih =>
    intro s hi hin
    obtain ⟨u, hu, hui, huin⟩ | ⟨w, hf, hw, hs⟩ := step_of_duties hi hin
    · obtain ⟨t, ht, hkept⟩ | ⟨k, t, w, hk, ht, hf, hw, hend⟩ := ih u hui huin
      · exact .inl ⟨t, (stepN_succ n s u hu).trans ht, hkept⟩
      · exact .inr ⟨k + 1, t, w, Nat.succ_lt_succ hk, (stepN_succ k s u hu).trans ht, hf, hw, (stepN_succ n s u hu).trans hend⟩
    · exact .inr ⟨0, s, w, n.succ_pos, rfl, hf, hw, stepN_succ_fault n hs⟩

/-- Settles O21: PC goes to the next address at a non-jump, and at a JNC that Cy = 1 leaves untaken. -/
theorem nonJumpsAdvanceSequentially : Obligations.NonJumpsAdvanceSequentially := by
  refine ⟨fun i s t hi h => ?_, fun im s t hcy h => ?_⟩
  · rw [Advances, exec_pc_of_not_isJump hi h, nextPc_toNat]
  · rw [exec_jncIm, if_neg (by simp [hcy])] at h
    cases h
    exact jump_nextPc_advances s

/-- Settles O37: HALT is the halt test of the fetched word, read under each policy by `selfJump_iff`. -/
theorem haltTestOfEachPolicy : Obligations.HaltTestOfEachPolicy := by
  intro s w hf
  obtain ⟨taken, jmpOnly, never⟩ := selfJump_iff (opcodeOf w) (operandOf w) s.pc s.cy
  rw [Ne, status_eq_halt_iff hf]
  refine ⟨fun hp => ?_, fun hp => ?_, fun hp => ?_⟩
  · rw [hp, taken]
  · rw [hp, jmpOnly]
  · rw [hp, never]; decide

/-- Settles O38: by `exec_eq_self_iff` an executed instruction is a fixed point exactly where the default halt test holds, and each other
policy's test implies the default one. -/
theorem haltExactlyAtFixedPoints : Obligations.HaltExactlyAtFixedPoints := by
  refine ⟨fun s hp => ?_, fun s w i hf hd => ?_⟩
  · obtain ⟨hf, -, hs⟩ | ⟨w, -, -, hst, hs⟩ | ⟨w, i, -, -, -, -, -, hst, hs⟩ | ⟨w, i, -, -, ho, him, hj, hst, hs⟩ := step_cases s
    · simp [State.status, hf, hs]
    · simp [hst, hs]
    · simp [hst, hs]
    · rw [hs, exec_eq_self_iff, ho, him, ← hp, hj, hst]
      decide
  · obtain ⟨ho, him⟩ := fields_of_decode hd
    rw [step_of_decode hf hd]
    split
    · next hj =>
      rw [← ho, ← him] at hj
      exact ((exec_eq_self_iff i s).2 (selfJump_default hj)).symm
    · rfl

/-- Settles O39: a step or a clock edge at an ended run is a fixed point, so any number of them is. -/
theorem endedRunsStayEnded : Obligations.EndedRunsStayEnded := by
  refine ⟨fun n s h => ?_, fun n s h => Function.iterate_fixed (clockEdge_of_ended h) n, fun s t h hne => ?_⟩
  · induction n with
    | zero => rfl
    | succ n ih => rw [stepN_succ n s s (step_of_halt h), ih]
  · obtain ⟨-, rfl⟩ | ⟨w, i, -, -, hst, -⟩ := step_next_cases h
    · exact absurd rfl hne
    · exact hst

/-- Settles O53, from `runFor_eq_iff` and the two turns that end a run of the core. -/
theorem runResultIsTheEndOfTheSteps : Obligations.RunResultIsTheEndOfTheSteps := by
  refine ⟨fun b s f k => ?_, fun b s r f k => ?_⟩
  · exact runFor_eq_end_iff (by nofun) b s fun m g => turn_eq_halted_iff m g f k
  · exact runFor_eq_end_iff (by nofun) b s fun m g => turn_eq_aborted_iff m g r f k

/-- Settles O54: neither result of the core is the caller's abandoning. -/
theorem largerCeilingKeepsTheResult : Obligations.LargerCeilingKeepsTheResult :=
  fun _ more _ _ => ⟨fun _ _ => runFor_larger_ceiling (by nofun) more, fun _ _ _ => runFor_larger_ceiling (by nofun) more⟩

/-- Settles O36, by the two branches of the halt test. -/
theorem stepRunsTheDecodedInstruction : Obligations.StepRunsTheDecodedInstruction := by
  intro s w i hf hd
  rw [step_of_decode hf hd, Ne, status_eq_halt_iff hf]
  exact ⟨fun h => if_neg h, fun h => if_pos h⟩

/-- Settles O40: the status names nothing else of the state. -/
theorem statusReadsOnlyWordPcAndCarry : Obligations.StatusReadsOnlyWordPcAndCarry := by
  intro s t hp hf hpc hcy
  rw [State.status, State.status, hp, hf, hpc, hcy]

end Sys2Proof.Proofs
end

section
/-! PROOFS of the family 60_exceptions.md. An instruction faults only where it is an IN that is answered out of range (`exec_fault_cases`),
so a step faults in two ways (`step_fault_cases`): at an invalid word, or at such an IN. -/

namespace Sys2Proof.Proofs

open Sys2Proof.Machine Sys2Proof.Laws

/-! ### The sample out of range -/

/-- With the next listed value out of range, `inputTo` fails fast (60_exceptions.md R86). -/
theorem inputTo_outOfRange {s : State} {v : Nat} (r : Reg) (hv : s.supply.head? = some v) (hlt : 15 < v) :
    s.inputTo r = .fault (.outOfBoundsInput s.pc v) := by
  obtain ⟨y, -, listed, -⟩ | ⟨x, hs, hx, -⟩ := inputTo_cases s r
  · exact absurd (listed v hv).1 (Nat.not_le.2 hlt)
  · obtain rfl : x = v := Option.some.inj (hx.symm.trans hv)
    exact hs

/-- `inputTo` faults only with a listed value out of range. -/
theorem inputTo_fault_cases {s : State} {r : Reg} {f : Fault} (h : s.inputTo r = .fault f) :
    ∃ v, s.supply.head? = some v ∧ 15 < v ∧ f = .outOfBoundsInput s.pc v := by
  obtain ⟨v, hs, -⟩ | ⟨x, hs, hx, hlt⟩ := inputTo_cases s r
  · rw [hs] at h; cases h
  · exact ⟨x, hx, hlt, Host.Outcome.fault.inj (h.symm.trans hs)⟩

/-! ### The causes of a fault -/

/-- The two opcodes that read the Input Port (42_io.md R64, R65). -/
theorem opcode_of_readsInput {i : Instr} (h : (accessOf i).readsInput = true) : i.opcode = 0b0010#4 ∨ i.opcode = 0b0110#4 := by
  cases i with
  | inA u => exact .inl rfl
  | inB u => exact .inr rfl
  | _ => cases h

/-- An instruction that faults is an IN that is answered with a value out of range. -/
theorem exec_fault_cases {i : Instr} {s : State} {f : Fault} (h : exec i s = .fault f) :
    (accessOf i).readsInput = true ∧ ∃ v, s.supply.head? = some v ∧ 15 < v ∧ f = .outOfBoundsInput s.pc v := by
  cases hi : (accessOf i).readsInput
  · obtain ⟨t, ht⟩ := exec_completes i s hi
    rw [ht] at h; cases h
  · obtain ⟨r, hr⟩ := exec_readsInput hi
    exact ⟨rfl, inputTo_fault_cases ((hr s).symm.trans h)⟩

/-- A step that faults has fetched an invalid word, or an IN that is answered with a value out of range (60_exceptions.md R87). -/
theorem step_fault_cases {s : State} {f : Fault} (h : step s = .fault f) :
    ∃ w, s.fetch = some w ∧
      ((opcodeOf w ∈ WellFormed.invalidOpcodes ∧ f = .decodeError s.pc w) ∨
       ((opcodeOf w = 0b0010#4 ∨ opcodeOf w = 0b0110#4) ∧
         ∃ v, s.supply.head? = some v ∧ 15 < v ∧ f = .outOfBoundsInput s.pc v)) := by
  obtain ⟨-, -, hs⟩ | ⟨w, hf, hw, -, hs⟩ | ⟨w, i, -, -, -, -, -, -, hs⟩ | ⟨w, i, hf, -, ho, -, -, -, hs⟩ := step_cases s
  · rw [hs] at h; cases h
  · exact ⟨w, hf, .inl ⟨(opcode_check_iff _).1 hw, Host.Outcome.fault.inj (h.symm.trans hs)⟩⟩
  · rw [hs] at h; cases h
  · obtain ⟨hin, hcause⟩ := exec_fault_cases (hs.symm.trans h)
    exact ⟨w, hf, .inr ⟨ho ▸ opcode_of_readsInput hin, hcause⟩⟩

/-- A clock edge whose step faults leaves the state as it is (60_exceptions.md R91). -/
theorem clockEdge_of_fault {s : State} {f : Fault} (h : step s = .fault f) : clockEdge s = s := by
  rw [clockEdge, h]

/-! ### The statements -/

/-- Settles O42: an invalid word faults by `step_of_invalid`, and of the two causes of a fault only this one gives `DecodeError`. -/
theorem decodeErrorExactlyAtInvalidWords : Obligations.DecodeErrorExactlyAtInvalidWords := by
  refine ⟨fun s w hf hw => ?_, fun s x w h => ?_⟩
  · have hs := step_of_invalid hf ((opcode_check_iff _).2 hw)
    exact ⟨hs, clockEdge_of_fault hs⟩
  · obtain ⟨w', hf, ⟨hw, he⟩ | ⟨-, v, -, -, he⟩⟩ := step_fault_cases h
    · obtain ⟨rfl, rfl⟩ := Fault.decodeError.inj he
      exact ⟨rfl, hf, hw⟩
    · cases he

/-- Settles O44, from the two causes of a fault. -/
theorem noOtherErrorExists : Obligations.NoOtherErrorExists := fun _ _ => step_fault_cases

/-- Settles O43: both IN are `inputTo`, which fails fast. -/
theorem outOfRangeSampleFailsFast : Obligations.OutOfRangeSampleFailsFast :=
  fun _ _ _ hv hlt => ⟨inputTo_outOfRange .a hv hlt, inputTo_outOfRange .b hv hlt⟩

end Sys2Proof.Proofs
end

section
/-! PROOFS of the family 70_reset_and_hazards.md. A reset event is the reset state with what the host owns put back (`resetEvent_eq`),
so what follows it is the run of the word at address 0 from PC = 0 and Cy = 0. -/

namespace Sys2Proof.Proofs

open Sys2Proof.Machine Sys2Proof.Laws

/-! ### The reset event -/

/-- A reset event answers the reset state with the image, the halt policy and the supplier kept (log entries 5 and 8). -/
theorem resetEvent_eq (s : State) :
    resetEvent s =
      { State.reset with rom := s.rom, haltPolicy := s.haltPolicy, supply := s.supply, samples := s.samples } := rfl

@[simp] theorem resetEvent_cy (s : State) : (resetEvent s).cy = false := rfl
@[simp] theorem resetEvent_pc (s : State) : (resetEvent s).pc = 0 := rfl
@[simp] theorem resetEvent_rom (s : State) : (resetEvent s).rom = s.rom := rfl
@[simp] theorem resetEvent_haltPolicy (s : State) : (resetEvent s).haltPolicy = s.haltPolicy := rfl

/-! ### The first fetch -/

/-- With a program image the first fetch after reset gives the word at address 0. -/
theorem fetch_resetEvent {s : State} {w : Byte} (hi : ProgramImage s) (hw : s.rom.read 0 = some w) :
    (resetEvent s).fetch = some w := by
  have hri : ProgramImage (resetEvent s) := programImage_congr (resetEvent_rom s) hi
  rw [fetch_eq_read hri, resetEvent_pc, resetEvent_rom]
  exact hw

/-- The words of `JMP 0` and `JNC 0` meet the default halt test at PC = 0 and Cy = 0. -/
theorem status_resetEvent_of_jump_zero {s : State} {w : Byte} (hf : (resetEvent s).fetch = some w)
    (hp : s.haltPolicy = .takenSelfJump) (hw : w = 0xF0 ∨ w = 0xE0) : (resetEvent s).status = some .halt := by
  rw [status_eq_halt_iff hf, resetEvent_haltPolicy, resetEvent_pc, resetEvent_cy, hp]
  obtain rfl | rfl := hw
  · decide
  · decide

/-- A run that starts at HALT is `Halted` where it started, under every ceiling (44_engine.md R79). -/
theorem runFor_of_halt {s : State} (budget n : Nat) (h : s.status = some .halt) : runFor budget n s = .halted s n :=
  runFor_of_turn_inl budget ((turn_eq_halted_iff n s s n).2 ⟨h, rfl, rfl⟩)

/-! ### The statements -/

/-- Settles O35: the first fetched word is the one at address 0, and it faults or halts at PC = 0 and Cy = 0. -/
theorem firstFetchAfterReset : Obligations.FirstFetchAfterReset := by
  intro s w hi hw
  have hf := fetch_resetEvent hi hw
  refine ⟨hf, fun hop => ?_, fun hp hjump => ?_⟩
  · exact step_of_invalid hf ((opcode_check_iff _).2 hop)
  · have hhalt := status_resetEvent_of_jump_zero hf hp hjump
    exact ⟨hhalt, fun budget => runFor_of_halt budget 0 hhalt⟩

/-- Settles O33: both kinds of reset give each of the six fields its initial value. -/
theorem resetGivesInitialValues : Obligations.ResetGivesInitialValues :=
  ⟨⟨rfl, rfl, rfl, rfl, rfl, rfl⟩, fun _ => ⟨rfl, rfl, rfl, rfl, rfl, rfl⟩⟩

/-- Settles O34: by `resetEvent_eq` the state after a reset event is a function of the ROM, the halt policy and the supplier. -/
theorem nothingOfARunSurvivesReset : Obligations.NothingOfARunSurvivesReset := by
  refine ⟨fun s t hrom hpolicy hsupply hsamples => ?_, fun s => ⟨resetEvent_rom s, resetEvent_haltPolicy s⟩⟩
  rw [resetEvent_eq s, resetEvent_eq t, hrom, hpolicy, hsupply, hsamples]

end Sys2Proof.Proofs
end
